-- ==== Sys2Proof/Word.lean ====
section
/-! DEFINITION. The two value widths of the machine (00_scope.md R5, R6): the byte and the 16-bit word. -/

namespace Sys2Proof

/-- `BYTE`: "an unsigned 8-bit value 0 to 255" (R6). -/
abbrev Byte := BitVec 8

/-- `WORD`, `XLEN`: "a word is an unsigned 16-bit value 0 to 65535" (R6). -/
abbrev Word := BitVec 16

end Sys2Proof
end

