-- ==== Sys2Proof/Config.lean ====
section
/-! DEFINITION. The implementation parameters of 00_scope.md R5. Every one is fixed by the spec; none differs between
instances of this hardware (10_state.md R24), and nothing is left open, so there is no free value. `MAX_STEPS` is no
constant: it is the optional argument of the runner (Machine/Run.lean). -/

namespace Sys2Proof.Config

/-- `MEM_SIZE`: addresses 0 to 19 (R5, R30). -/
abbrev memSize : Nat := 20

/-- `INSTR_END`: the last address instruction fetch may read (R5, R36). -/
abbrev instrEnd : Nat := 13

/-- `OUT_ADDR`: the output word is at addresses 14 and 15 (R5, R31). -/
abbrev outAddr : Nat := 14

/-- `IN1_ADDR`: the input-1 word is at addresses 16 and 17 (R5, R31). -/
abbrev in1Addr : Nat := 16

/-- `IN2_ADDR`: the input-2 word is at addresses 18 and 19 (R5, R31). -/
abbrev in2Addr : Nat := 18

/-- `RESET_PC` (R5, R22). -/
abbrev resetPc : Word := 0

/-- `ARITH_MODULUS` (R5, R102). -/
abbrev arithModulus : Nat := 65536

/-- What the sequencer adds to the pc after a completed non-halt step (R15, R78). -/
abbrev pcStride : Word := 3

/-- The most steps a run from reset can take (R166); the runner's bound when `MAX_STEPS` is absent. -/
abbrev stepBound : Nat := 5

end Sys2Proof.Config
end

