-- ==== Sys2Proof/Machine/Flags.lean ====
section
/-! DEFINITION. The ALU (42_arithmetic.md R100 to R102). There are no flags to compute: "No carry or overflow
indication exists", "there are no status flags, condition codes or predicates" (10_state.md R17); the result word is
all an operation gives. Each is computed exactly on integers and then reduced modulo 65536. -/

namespace Sys2Proof.Machine

/-- `(va + vb) mod 65536` (R100). -/
def aluAdd (va vb : Word) : Word :=
  BitVec.ofNat 16 ((va.toNat + vb.toNat) % Config.arithModulus)

/-- `(va - vb) mod 65536`, the non-negative remainder of the exact difference (R101, 00_scope.md R6). -/
def aluSub (va vb : Word) : Word :=
  BitVec.ofInt 16 (((va.toNat : Int) - (vb.toNat : Int)) % (Config.arithModulus : Int))

end Sys2Proof.Machine
end

