-- ==== Sys2Proof/Machine/State.lean ====
section
/-! DEFINITION. The state of the CORE, exactly the record of 10_state.md R24, its reset value (R22), and the reasons
a step of the model can stop. -/

namespace Sys2Proof.Machine

/-- The error kinds a step of the CORE can raise, the values of `K` in `Faulted(K)` (R18, 60_exceptions.md R120).
Names only: there is no numbering (R126). `InvalidMemorySize` is no value of `K` (R121); it is an `ErrorKind` of
Machine/Run.lean. -/
inductive FaultKind where
  /-- The opcode byte is not in the table (R122). -/
  | unknownOpcode
  /-- A register-address operand is not 1 or 2 (R123). -/
  | invalidOperand
  /-- A fetch above address 13, or a data word beyond address 19 (R124). -/
  | outOfBounds
  /-- `store_word`, `add` or `sub` reads a register never loaded (R125). -/
  | uninitializedRegisterRead
deriving DecidableEq, Repr

/-- The run state of the control sequencer (R18). -/
inductive RunState where
  /-- "The initial state. A step can be taken." -/
  | running
  /-- "Terminal. Entered when `halt` executes." -/
  | halted
  /-- "Terminal. Entered when a step raises error kind `K`." -/
  | faulted (k : FaultKind)
deriving DecidableEq, Repr

/-- The two general registers, slots 1 and 2 of the register file (R10). Slot 0 is the pc and no instruction can
name it (R13). -/
inductive Gpr where
  | x1
  | x2
deriving DecidableEq, Repr

/-- The 20-byte memory (20_memory.md R30) as a list of cells in the canonical form `Memory.wf` (Machine/Ops.lean);
an address of the memory that is not listed holds 0x00.
DESIGN CHOICE (log 1): the spec gives memory no reset contents of its own, only the host's image. -/
abbrev Memory := List Host.Cell

/-- The whole state (R24): "exactly this record, and nothing else". A general register is held as R24 allows, "as an
optional 16-bit value (`none` for uninitialized)", since an uninitialized register "has no value at all. A model
must not give it one" (R12). -/
structure State where
  /-- The memory (R30). -/
  mem : Memory
  /-- Slot 0, the program counter (R14). -/
  pc : Word
  /-- Slot 1: `valid[1]` and `val[1]` (R12). -/
  x1 : Option Word
  /-- Slot 2: `valid[2]` and `val[2]` (R12). -/
  x2 : Option Word
  /-- The run state (R18). -/
  run : RunState
deriving DecidableEq, Repr

/-- The state of R22 before the host has supplied any image: no cell listed.
The state a run starts from is `loadImage` of the image (Machine/Run.lean), which differs from this one in `mem`
only. -/
def State.reset : State where
  mem := []
  pc := Config.resetPc
  x1 := none
  x2 := none
  run := .running

/-- Why the model takes no step. The faults the spec describes are none of these: they lead to the next state
`Faulted(K)` (R128). -/
inductive Fault where
  /-- Raised by `step` in `Halted`: "no further instructions execute", the machine has no transition (R76). Safe:
  the hardware does nothing there either. -/
  | noStepInHalted
  /-- Raised by `step` in `Faulted(K)`: terminal, nothing leaves it but a new reset (R76, R129). Safe: the hardware
  does nothing there either. -/
  | noStepInFaulted (k : FaultKind)
deriving DecidableEq, Repr

/-- Refusals of the model. -/
inductive Refusal where
  /-- Answered by an arm of `exec` for an instruction without a meaning. No arm does so: every instruction of the
  table has its meaning. Safe. -/
  | notModelled (mnemonic : String)
deriving DecidableEq, Repr

/-- What a step or a meaning answers. -/
abbrev Result := Host.Outcome State Fault Refusal

end Sys2Proof.Machine
end

