-- ==== Sys2Proof/Machine/Ops.lean ====
section
/-! DEFINITION. The named operations over memory and registers (the primitives of 00_scope.md R7), fault entry
(60_exceptions.md R128) and the pc advance (R78). There is no return from a fault to stand beside the entry: "there
is no return-from-trap instruction and nothing to restore" (R129). -/

namespace Sys2Proof.Machine

/-! ### The cells of memory -/

/-- `mem[a]` for an address of the memory: the listed byte, or 0x00 where none is listed (log 1). -/
def Memory.peek : Memory → Nat → Byte
  | [], _ => 0
  | (b, v) :: m, a => if a = b then v else Memory.peek m a

/-- The list with `v` in front at `a`, or without an entry when `v` is the byte an unlisted address holds. -/
def Memory.cons (a : Nat) (v : Byte) (m : Memory) : Memory :=
  if v = 0 then m else (a, v) :: m

/-- `mem[a] <- v`, keeping the canonical form. -/
def Memory.poke : Memory → Nat → Byte → Memory
  | [], a, v => Memory.cons a v []
  | (b, w) :: m, a, v =>
    if a < b then Memory.cons a v ((b, w) :: m)
    else if a = b then Memory.cons a v m
    else (b, w) :: Memory.poke m a v

/-- Addresses strictly rising from `lo` on and inside the memory, no byte equal to what an unlisted address holds. -/
def Memory.wfFrom : Nat → Memory → Bool
  | _, [] => true
  | lo, (a, v) :: m => decide (lo ≤ a) && decide (a < Config.memSize) && decide (v ≠ 0) && Memory.wfFrom (a + 1) m

/-- The canonical form of memory. -/
def Memory.wf (m : Memory) : Bool := Memory.wfFrom 0 m

/-! ### Byte order (20_memory.md R37) -/

/-- `low + high * 256` (R38). -/
def wordOfBytes (low high : Byte) : Word := BitVec.ofNat 16 (low.toNat + high.toNat * 256)

/-- `v mod 256` (R39). -/
def lowByte (v : Word) : Byte := BitVec.ofNat 8 (v.toNat % 256)

/-- `v div 256` (R39). -/
def highByte (v : Word) : Byte := BitVec.ofNat 8 (v.toNat / 256)

/-! ### Bounds-checked access -/

/-- `MemRead(addr, 1)` (R33). -/
def memReadByte (m : Memory) (addr : Nat) : Except FaultKind Byte :=
  if addr < Config.memSize then .ok (m.peek addr) else .error .outOfBounds

/-- `MemWrite(addr, 1, v)` (R33). -/
def memWriteByte (m : Memory) (addr : Nat) (v : Byte) : Except FaultKind Memory :=
  if addr < Config.memSize then .ok (m.poke addr v) else .error .outOfBounds

/-- The bounds check of a word access: `if addr + 1 > 19 then raise OutOfBounds` (R38, R39). -/
def checkWordAddr (addr : Nat) : Except FaultKind Unit :=
  if addr + 1 < Config.memSize then .ok () else .error .outOfBounds

/-- `MemRead(addr, 2)` (R38). -/
def memReadWord (m : Memory) (addr : Nat) : Except FaultKind Word := do
  checkWordAddr addr
  let low ← memReadByte m addr
  let high ← memReadByte m (addr + 1)
  return wordOfBytes low high

/-- `MemWrite(addr, 2, v)` (R39): the check comes before both byte writes. -/
def memWriteWord (m : Memory) (addr : Nat) (v : Word) : Except FaultKind Memory := do
  checkWordAddr addr
  let m' ← memWriteByte m addr (lowByte v)
  memWriteByte m' (addr + 1) (highByte v)

/-- `Fetch(a)`, the instruction-side read with its own limit (R36). -/
def fetchByte (m : Memory) (a : Nat) : Except FaultKind Byte :=
  if a ≤ Config.instrEnd then .ok (m.peek a) else .error .outOfBounds

/-! ### The general registers -/

/-- The register as it is held: `none` while uninitialized. -/
def State.reg (s : State) : Gpr → Option Word
  | .x1 => s.x1
  | .x2 => s.x2

/-- `valid[i]` (10_state.md R12). -/
def State.valid (s : State) (r : Gpr) : Bool := (s.reg r).isSome

/-- `x[i]` as a read: an uninitialized register faults (R12). -/
def State.readReg (s : State) (r : Gpr) : Except FaultKind Word :=
  match s.reg r with
  | some v => .ok v
  | none => .error .uninitializedRegisterRead

/-- `x[i] <- v`: `val[i] <- v` and `valid[i] <- true` (R7). -/
def State.writeReg (s : State) (r : Gpr) (v : Word) : State :=
  match r with
  | .x1 => { s with x1 := some v }
  | .x2 => { s with x2 := some v }

/-! ### The sequencer's writes -/

/-- `raise K`, fault entry: "`run <- Faulted(K)`. Nothing else changes" (R128). No pc or status is saved, no mode
changes, control goes nowhere. -/
def State.raise (s : State) (k : FaultKind) : State := { s with run := .faulted k }

/-- `pc <- pc + 3` (R78). The pc is a 16-bit slot (R14, D1); no step makes this addition wrap (R16). -/
def State.advance (s : State) : State := { s with pc := s.pc + Config.pcStride }

/-- How the sequencer ends the execute stage begun in `s`: a raised kind undoes everything (R128), a completed
execute stage is followed by the pc advance (R75, sub-steps 4b and 4c). -/
def State.finish (s : State) (executed : Except FaultKind State) : Result :=
  match executed with
  | .error k => .next (s.raise k)
  | .ok t => .next t.advance

end Sys2Proof.Machine
end

