-- ==== Sys2Proof/Machine/Operands.lean ====
section
/-! DEFINITION. The two operand kinds (30_encoding.md R56): a register address and an absolute memory address. -/

namespace Sys2Proof.Machine

/-- The byte that names a general register: its slot number (10_state.md R10, R13). -/
def Gpr.address : Gpr → Byte
  | .x1 => 1
  | .x2 => 2

/-- `RegSel(b)`: "1 means `x[1]`, 2 means `x[2]`; every other value (0, 3 to 255) raises `InvalidOperand`" (R56). -/
def regSel (b : Byte) : Except FaultKind Gpr :=
  if b = 1 then .ok .x1
  else if b = 2 then .ok .x2
  else .error .invalidOperand

/-- The one addressing mode, absolute: "the effective address is `B2` itself" (41_load_store.md R93), a natural
number (00_scope.md R6), so that `addr + 1` does not wrap at 8 bits (R38). -/
def effectiveAddr (b2 : Byte) : Nat := b2.toNat

end Sys2Proof.Machine
end

