-- ==== Sys2Proof/Machine/Arithmetic.lean ====
section
/-! DEFINITION. `add` and `sub` (42_arithmetic.md). -/

namespace Sys2Proof.Machine

/-- The execute stage the two share (R100, R101): both register addresses are checked before any register is read,
both registers are read before the destination A is written (R103). -/
def arithBody (op : Word → Word → Word) (regA regB : Byte) (s : State) : Except FaultKind State := do
  let a ← regSel regA
  let b ← regSel regB
  let va ← s.readReg a
  let vb ← s.readReg b
  return s.writeReg a (op va vb)

/-- `add regA, regB` (R100). -/
def execAdd (regA regB : Byte) (s : State) : Result := s.finish (arithBody aluAdd regA regB s)

/-- `sub regA, regB`: A is the minuend (R101). -/
def execSub (regA regB : Byte) (s : State) : Result := s.finish (arithBody aluSub regA regB s)

end Sys2Proof.Machine
end

