-- ==== Sys2Proof/Machine/Halt.lean ====
section
/-! DEFINITION. `halt` (43_halt.md). -/

namespace Sys2Proof.Machine

/-- `halt`: "State written: `run` only" (R110); no pc advance. -/
def execHalt (s : State) : Result := .next { s with run := .halted }

end Sys2Proof.Machine
end

