-- ==== Sys2Proof/Machine/LoadStore.lean ====
section
/-! DEFINITION. `load_word` and `store_word` (41_load_store.md). -/

namespace Sys2Proof.Machine

/-- The execute stage of `load_word` (R90). -/
def loadWordBody (reg addr : Byte) (s : State) : Except FaultKind State := do
  let r ← regSel reg
  let v ← memReadWord s.mem (effectiveAddr addr)
  return s.writeReg r v

/-- The execute stage of `store_word` (R91): the address is checked before the register is read. -/
def storeWordBody (reg addr : Byte) (s : State) : Except FaultKind State := do
  let r ← regSel reg
  checkWordAddr (effectiveAddr addr)
  let v ← s.readReg r
  let m ← memWriteWord s.mem (effectiveAddr addr) v
  return { s with mem := m }

/-- `load_word reg, addr` (R90). -/
def execLoadWord (reg addr : Byte) (s : State) : Result := s.finish (loadWordBody reg addr s)

/-- `store_word reg, addr` (R91). -/
def execStoreWord (reg addr : Byte) (s : State) : Result := s.finish (storeWordBody reg addr s)

end Sys2Proof.Machine
end

