-- ==== Sys2Proof/Syntax.lean ====
section
/-! DEFINITION. The five instructions of the opcode table (30_encoding.md R54), one constructor per row.

An operand stands here as the byte it is in memory. The decoder "does not look at the operand bytes" (R55) and an
operand value outside the legal ones is a fault of the execute stage, not of decoding (R59), so an instruction with
such a byte is an instruction the machine meets and must be a term. `Instr.wellFormed` (WellFormed.lean) says which
operand bytes are legal. -/

namespace Sys2Proof

/-- One instruction as fetched: the operation and its operand bytes `B1`, `B2` (R51, R52, R57). -/
inductive Instr where
  /-- `load_word reg, addr`: bytes `01 reg addr` (R90). -/
  | loadWord (reg addr : Byte)
  /-- `store_word reg, addr`: bytes `02 reg addr` (R91). -/
  | storeWord (reg addr : Byte)
  /-- `add regA, regB`: bytes `03 regA regB` (R100). -/
  | add (regA regB : Byte)
  /-- `sub regA, regB`: bytes `04 regA regB` (R101). -/
  | sub (regA regB : Byte)
  /-- `halt`: the byte `ff` (R110). -/
  | halt
deriving DecidableEq, Repr

end Sys2Proof
end

