-- ==== Sys2Proof/Machine/Dispatch.lean ====
section
/-! DEFINITION. The dispatch: one arm per instruction of the opcode table (30_encoding.md R54). -/

namespace Sys2Proof.Machine

def exec (i : Instr) (s : State) : Host.Outcome State Fault Refusal :=
  match i with
  | .loadWord reg addr => Sys2Proof.Machine.execLoadWord reg addr s
  | .storeWord reg addr => Sys2Proof.Machine.execStoreWord reg addr s
  | .add regA regB => Sys2Proof.Machine.execAdd regA regB s
  | .sub regA regB => Sys2Proof.Machine.execSub regA regB s
  | .halt => Sys2Proof.Machine.execHalt s

end Sys2Proof.Machine
end

