-- ==== Sys2Proof/Decode.lean ====
section
/-! DEFINITION. The decoder (30_encoding.md R55, 40_fetch_decode_sequencer.md R74), decoding of a byte sequence, and
the encoder, both from the opcode table of 30_encoding.md R54. -/

namespace Sys2Proof

/-- The decoder's output, the "operation kind" (R55). -/
inductive OpKind where
  | loadWord
  | storeWord
  | add
  | sub
  | halt
deriving DecidableEq, Repr

/-- Why a byte sequence is no instruction. -/
inductive DecodeError where
  /-- The first byte is none of the five opcodes: the 251 other values (R58). -/
  | unknownOpcode
  /-- The sequence ends before the instruction does (R50). In a step the fetch unit reports this as `OutOfBounds`. -/
  | truncated
deriving DecidableEq, Repr

/-- The opcode byte of each operation (R54). -/
def OpKind.opcode : OpKind → Byte
  | .loadWord => 0x01
  | .storeWord => 0x02
  | .add => 0x03
  | .sub => 0x04
  | .halt => 0xff

/-- "Operand arity is 2 for `load_word`, `store_word`, `add`, `sub` and 0 for `halt`" (R55). -/
def OpKind.arity : OpKind → Nat
  | .loadWord => 2
  | .storeWord => 2
  | .add => 2
  | .sub => 2
  | .halt => 0

/-- `decode(B0)` of R74: a pure function of the whole opcode byte. -/
def decodeOpcode (b0 : Byte) : Except DecodeError OpKind :=
  if b0 = 0x01 then .ok .loadWord
  else if b0 = 0x02 then .ok .storeWord
  else if b0 = 0x03 then .ok .add
  else if b0 = 0x04 then .ok .sub
  else if b0 = 0xff then .ok .halt
  else .error .unknownOpcode

/-- The instruction of an operation and its two operand bytes (R51, R57). `halt` has none (R52): the fetch unit and
`decode` give it none, and here they are dropped. -/
def OpKind.triplet : OpKind → Byte → Byte → Instr
  | .loadWord, b1, b2 => .loadWord b1 b2
  | .storeWord, b1, b2 => .storeWord b1 b2
  | .add, b1, b2 => .add b1 b2
  | .sub, b1, b2 => .sub b1 b2
  | .halt, _, _ => .halt

/-- The instruction at the front of a byte sequence, and the bytes after it. The opcode byte alone tells the length
(R53); `halt` takes no byte after its own (R52). -/
def decode : List Byte → Except DecodeError (Instr × List Byte)
  | [] => .error .truncated
  | b0 :: rest =>
    match decodeOpcode b0 with
    | .error e => .error e
    | .ok k =>
      if k.arity = 0 then .ok (.halt, rest)
      else
        match rest with
        | b1 :: b2 :: rest' => .ok (k.triplet b1 b2, rest')
        | _ => .error .truncated

/-- The bytes of an instruction in memory order (R51, R52, R54). -/
def encode : Instr → List Byte
  | .loadWord reg addr => [0x01, reg, addr]
  | .storeWord reg addr => [0x02, reg, addr]
  | .add regA regB => [0x03, regA, regB]
  | .sub regA regB => [0x04, regA, regB]
  | .halt => [0xff]

/-- The three bytes, first byte first, of an instruction whose bits the opcode table numbers from the least
significant bit of its first byte. Bits from `nbits` up are 0. -/
def tableWordBytes (nbits w : Nat) : List Byte :=
  let v := w % 2 ^ nbits
  [BitVec.ofNat 8 v, BitVec.ofNat 8 (v / 256), BitVec.ofNat 8 (v / 65536)]

/-- The instruction the decoder reads from such a word. -/
def decodeTableWord (nbits w : Nat) : Option Instr :=
  match decode (tableWordBytes nbits w) with
  | .ok (i, _) => some i
  | .error _ => none

end Sys2Proof
end

