-- ==== Sys2Proof/Machine/Fetch.lean ====
section
/-! DEFINITION. The fetch unit with the decoder (40_fetch_decode_sequencer.md R71 to R74): sub-steps 1 to 4a of the
step (R75), and the placing of bytes in memory that the loader and `withFetchWord` use. -/

namespace Sys2Proof.Machine

/-- Sub-steps 1, 2, 3 and 4a of R75: opcode fetch, decode, the halt test before any operand access (R77, R161), then
the two operand bytes, each bounds-checked (R72). The addresses are natural numbers and do not wrap (00_scope.md
R6). -/
def fetchInstr (m : Memory) (pc : Nat) : Except FaultKind Instr := do
  let b0 ← fetchByte m pc
  match decodeOpcode b0 with
  | .error _ => .error .unknownOpcode
  | .ok .halt => return .halt
  | .ok k =>
    let b1 ← fetchByte m (pc + 1)
    let b2 ← fetchByte m (pc + 2)
    return k.triplet b1 b2

/-- The bytes instruction fetch may still read from `pc` on: those of addresses `pc` to 13 (R36). -/
def fetchableBytes (m : Memory) (pc : Nat) : List Byte :=
  (List.range' pc (Config.instrEnd + 1 - pc)).map m.peek

/-- The memory with the bytes of a list at `a`, `a + 1` and on; a byte that would fall outside the memory is
dropped. -/
def placeBytes : Memory → Nat → List Byte → Memory
  | m, _, [] => m
  | m, a, b :: bs =>
    match memWriteByte m a b with
    | .ok m' => placeBytes m' (a + 1) bs
    | .error _ => placeBytes m (a + 1) bs

/-- Where `placeAtPc` puts a three-byte instruction: the pc, if an instruction fits there (R60), else address 0. -/
def State.placePc (s : State) : Word := if s.pc.toNat + 2 ≤ Config.instrEnd then s.pc else Config.resetPc

/-- The state whose next fetch finds the given three bytes: the bytes at the pc, the sequencer in the one run state
that fetches, and the pc itself moved only where the fetch limit leaves no room for three bytes. -/
def State.placeAtPc (s : State) (bs : List Byte) : State :=
  { s with mem := placeBytes s.mem s.placePc.toNat bs, pc := s.placePc, run := .running }

end Sys2Proof.Machine
end

