-- ==== Sys2Proof/Machine/Step.lean ====
section
/-! DEFINITION. The step (40_fetch_decode_sequencer.md R75, R76). -/

namespace Sys2Proof.Machine

/-- One step. It exists in `Running` only (R76): fetch and decode, then the instruction; a fault of the fetch unit or
the decoder is entered as every other one (R128). -/
def step (s : State) : Host.Outcome State Fault Refusal :=
  match s.run with
  | .halted => .fault .noStepInHalted
  | .faulted k => .fault (.noStepInFaulted k)
  | .running =>
    match fetchInstr s.mem s.pc.toNat with
    | .error k => .next (s.raise k)
    | .ok i => exec i s

/-- `s` with the instruction of the word `w` (bits numbered as the opcode table numbers them) where the next step
fetches it, in `Running`, without which no step fetches anything. It stands for the host's loading of a program
(log 2). -/
def State.withFetchWord (s : State) (nbits w : Nat) : State := s.placeAtPc (tableWordBytes nbits w)

end Sys2Proof.Machine
end

