-- ==== Sys2Proof/Machine/Reference.lean ====
section
/-! DEFINITION. The pseudocode of 40_fetch_decode_sequencer.md R75 written out a second time, as plainly as the rule
prints it: over natural numbers and an array, with nothing shared with the model's own operations. It is no part of
the machine; a statement says that the model's step is this one. -/

namespace Sys2Proof.Machine

/-- The record of 10_state.md R24 in naturals: `mem` is the array, `x i` is `val[i]` where `valid[i]`. -/
structure Pseudo where
  mem : Nat → Nat
  pc : Nat
  x : Nat → Option Nat
  run : RunState

/-- An array with one element changed. -/
def setAt {α : Type} (f : Nat → α) (i : Nat) (v : α) : Nat → α := fun j => if j = i then v else f j

/-- `raise K` of 00_scope.md R7. -/
def Pseudo.raise (p : Pseudo) (k : FaultKind) : Pseudo := { p with run := .faulted k }

/-- Sub-steps 4b and 4c of R75, for an opcode byte 1 to 4 and its operand bytes. -/
def Pseudo.execute (p : Pseudo) (b0 b1 b2 : Nat) : Pseudo :=
  if b1 ≠ 1 ∧ b1 ≠ 2 then p.raise .invalidOperand
  else if b0 = 1 then
    if b2 + 1 > 19 then p.raise .outOfBounds
    else { p with x := setAt p.x b1 (some (p.mem b2 + 256 * p.mem (b2 + 1))), pc := p.pc + 3 }
  else if b0 = 2 then
    if b2 + 1 > 19 then p.raise .outOfBounds
    else
      match p.x b1 with
      | none => p.raise .uninitializedRegisterRead
      | some v => { p with mem := setAt (setAt p.mem b2 (v % 256)) (b2 + 1) (v / 256), pc := p.pc + 3 }
  else if b2 ≠ 1 ∧ b2 ≠ 2 then p.raise .invalidOperand
  else
    match p.x b1, p.x b2 with
    | some va, some vb =>
      if b0 = 3 then { p with x := setAt p.x b1 (some ((va + vb) % 65536)), pc := p.pc + 3 }
      else { p with x := setAt p.x b1 (some (if vb ≤ va then va - vb else va + 65536 - vb)), pc := p.pc + 3 }
    | _, _ => p.raise .uninitializedRegisterRead

/-- The step of R75; none outside `Running` (R76). -/
def Pseudo.step (p : Pseudo) : Option Pseudo :=
  match p.run with
  | .halted => none
  | .faulted _ => none
  | .running =>
    if p.pc > 13 then some (p.raise .outOfBounds)
    else
      let b0 := p.mem p.pc
      if b0 = 0xff then some { p with run := .halted }
      else if b0 < 1 ∨ 4 < b0 then some (p.raise .unknownOpcode)
      else if p.pc + 1 > 13 ∨ p.pc + 2 > 13 then some (p.raise .outOfBounds)
      else some (p.execute b0 (p.mem (p.pc + 1)) (p.mem (p.pc + 2)))

/-- The record a state of the model stands for. -/
def State.pseudo (s : State) : Pseudo where
  mem := fun a => (s.mem.peek a).toNat
  pc := s.pc.toNat
  x := fun i => if i = 1 then s.x1.map BitVec.toNat else if i = 2 then s.x2.map BitVec.toNat else none
  run := s.run

end Sys2Proof.Machine
end

