-- ==== Sys2Proof/Machine/Run.lean ====
section
/-! DEFINITION. The host interface (70_reset_and_hazards.md R150 to R158): the image loader, the run from reset, and
what the host is given at its end. -/

namespace Sys2Proof.Machine

/-- The five error kinds (60_exceptions.md R120): the loader's own and the four faults of a step. -/
inductive ErrorKind where
  /-- The image is not exactly 20 bytes long; raised by the loader before any execution (R121, R153). -/
  | invalidMemorySize
  /-- The run ended in `Faulted(K)`. -/
  | step (k : FaultKind)
deriving DecidableEq, Repr

/-- What the host is given (R157). -/
inductive RunResult where
  /-- `run = Halted`: the final memory, all 20 bytes (R155). -/
  | success (finalMemory : List Byte)
  /-- The error kind "and nothing else" (R140). -/
  | failure (e : ErrorKind)
  /-- A runner given a `MAX_STEPS` below 5 stopped before the run was over: "its own outcome, never ... a machine
  fault" (92_eei_decisions.md D8). -/
  | outOfSteps
deriving DecidableEq, Repr

/-- The memory as the host reads it: 20 bytes, byte `i` from address `i` (R154, R155). -/
def Memory.image (m : Memory) : List Byte := (List.range Config.memSize).map m.peek

/-- Reset with an image (R150): "reject any memory image whose length is not exactly 20 bytes" (R153), otherwise the
reset state with byte `i` of the image at address `i` (R22, R154). -/
def loadImage (image : List Byte) : Except ErrorKind State :=
  if image.length = Config.memSize then .ok { State.reset with mem := placeBytes [] 0 image }
  else .error .invalidMemorySize

/-- The outcome of a run that has reached a terminal state (R158); `none` while `run = Running`. -/
def State.outcome (s : State) : Option RunResult :=
  match s.run with
  | .running => none
  | .halted => some (.success s.mem.image)
  | .faulted k => some (.failure (.step k))

/-- The run loop (R80): steps until a terminal state, at most `fuel` of them. -/
def runSteps : Nat → State → RunResult
  | 0, s => s.outcome.getD .outOfSteps
  | fuel + 1, s =>
    match s.outcome with
    | some r => r
    | none =>
      match step s with
      | .next t => runSteps fuel t
      | _ => .outOfSteps

/-- `run(memory)` (R152, R157). `maxSteps` is the open parameter `MAX_STEPS`, absent by default (R167); the bound the
definition then uses, 5, is the step bound every run meets (R166). -/
def run (image : List Byte) (maxSteps : Option Nat := none) : RunResult :=
  match loadImage image with
  | .error e => .failure e
  | .ok s => runSteps (maxSteps.getD Config.stepBound) s

end Sys2Proof.Machine
end

