-- ==== Sys2Proof/WellFormed.lean ====
section
/-! DEFINITION. Which operand bytes are legal (30_encoding.md R56, R57, R59; the `legal` entries of the opcode
table). An instruction that is not well formed still has its meaning, the fault the spec names for it; what is well
formed is what an assembler of R61 can write without `.byte` and what does not fault on its bytes alone. -/

namespace Sys2Proof

/-- "The only legal register addresses are 1 and 2"; the full byte is compared (10_state.md R13). -/
def regOperandLegal (b : Byte) : Bool := b == 1 || b == 2

/-- "Addresses 0 to 18 are usable; 19 to 255 raise `OutOfBounds`" (R56). -/
def addrOperandLegal (b : Byte) : Bool := decide (b.toNat + 1 < Config.memSize)

/-- Every operand byte is one of its legal values. -/
def Instr.wellFormed : Instr → Bool
  | .loadWord reg addr => regOperandLegal reg && addrOperandLegal addr
  | .storeWord reg addr => regOperandLegal reg && addrOperandLegal addr
  | .add regA regB => regOperandLegal regA && regOperandLegal regB
  | .sub regA regB => regOperandLegal regA && regOperandLegal regB
  | .halt => true

end Sys2Proof
end

