-- ==== Sys2Proof/Safety.lean ====
section
/-! DEFINITION. The terms claims use: the state invariants, what one instruction may leave changed, the states of a
run and the bytes its stores write. -/

namespace Sys2Proof.Machine

/-- Every byte of memory reads the same in both states. -/
def SameBytes (s t : State) : Prop := ∀ a : Nat, t.mem.peek a = s.mem.peek a

/-- Every byte of memory reads the same in both states, but for the word at `addr`. -/
def SameBytesBut (addr : Nat) (s t : State) : Prop :=
  ∀ a : Nat, a ≠ addr → a ≠ addr + 1 → t.mem.peek a = s.mem.peek a

/-- Both general registers hold the same in both states (values and valid bits). -/
def SameRegs (s t : State) : Prop := t.x1 = s.x1 ∧ t.x2 = s.x2

/-- Every general register but `r` holds the same in both states. -/
def SameRegsBut (r : Gpr) (s t : State) : Prop := ∀ q : Gpr, q ≠ r → t.reg q = s.reg q

/-- The operand byte names a general register that is uninitialized. -/
abbrev State.NamesUninitialized (s : State) (b : Byte) : Prop :=
  b = 1 ∧ s.valid .x1 = false ∨ b = 2 ∧ s.valid .x2 = false

/-- The result of entering fault `k` from `s`, field by field (60_exceptions.md R128): only `run` differs. -/
def FaultEntered (k : FaultKind) (s t : State) : Prop :=
  t.run = .faulted k ∧ t.pc = s.pc ∧ SameRegs s t ∧ t.mem = s.mem

/-- The step from `s` enters fault `k`. -/
def StepFaults (s : State) (k : FaultKind) : Prop := ∃ t, step s = .next t ∧ FaultEntered k s t

/-- The step from `s` completes an instruction other than `halt`. -/
def StepCompletes (s : State) : Prop := ∃ t, step s = .next t ∧ t.run = .running

/-- A terminal run state (10_state.md R18). -/
def RunState.terminal : RunState → Bool
  | .running => false
  | .halted => true
  | .faulted _ => true

/-- The pc values a run from reset takes (R16). -/
def reachablePcs : List Word := [0, 3, 6, 9, 12]

/-- The invariant of every state of a run: canonical memory, and the pc one of the values of R16. -/
def State.Inv (s : State) : Prop := s.mem.wf = true ∧ s.pc ∈ reachablePcs

/-- The state after exactly `n` steps; none where a step of them does not exist. -/
def stepTimes : Nat → State → Option State
  | 0, s => some s
  | n + 1, s =>
    match step s with
    | .next t => stepTimes n t
    | _ => none

/-- The states of at most `fuel` steps from `s`, `s` first, up to the first terminal one (R158). -/
def trace : Nat → State → List State
  | 0, s => [s]
  | fuel + 1, s =>
    match step s with
    | .next t => s :: trace fuel t
    | _ => [s]

/-- The addresses the step from `s` stores to: the two bytes of a `store_word` that completes, none otherwise
(R84). -/
def State.storedAddrs (s : State) : List Nat :=
  match fetchInstr s.mem s.pc.toNat with
  | .ok (.storeWord reg addr) =>
    match storeWordBody reg addr s with
    | .ok _ => [effectiveAddr addr, effectiveAddr addr + 1]
    | .error _ => []
  | _ => []

/-- The matrix of R141, execute-stage columns: which kinds an instruction can raise once it is fetched. -/
def canRaise : Instr → FaultKind → Bool
  | .loadWord _ _, .invalidOperand => true
  | .loadWord _ _, .outOfBounds => true
  | .loadWord _ _, _ => false
  | .storeWord _ _, .invalidOperand => true
  | .storeWord _ _, .outOfBounds => true
  | .storeWord _ _, .uninitializedRegisterRead => true
  | .storeWord _ _, .unknownOpcode => false
  | .add _ _, .invalidOperand => true
  | .add _ _, .uninitializedRegisterRead => true
  | .add _ _, _ => false
  | .sub _ _, .invalidOperand => true
  | .sub _ _, .uninitializedRegisterRead => true
  | .sub _ _, _ => false
  | .halt, _ => false

end Sys2Proof.Machine
end

