-- ==== Sys2Proof/Certificates/Slice0/Obligations.lean ====
section
/-! DEFINITION. The statements about the model, each from a numbered rule of spec/ or marked in its docstring as
derived. Where a statement about memory needs the canonical form, `Memory.wf` is a premise; that every step keeps it
is `StepKeepsTheInvariant`. -/

open Sys2Proof Sys2Proof.Machine

/-! ### Reset and the host's load -/

/-- 10_state.md section 6, and for the memory clause the model's own choice of log 1: with no image yet, the reset state
lists no byte, and is the state of the image of twenty 0x00 bytes. -/
def Obligations.ResetIsTheZeroImage : Prop :=
  State.reset.pc = 0 ∧ State.reset.valid .x1 = false ∧ State.reset.valid .x2 = false ∧
    State.reset.run = .running ∧ (∀ a, State.reset.mem.peek a = 0) ∧
    loadImage (List.replicate 20 0) = .ok State.reset

/-- R22: the reset value of every piece of state, memory from the host's image. -/
def Obligations.LoadGivesTheResetValues : Prop :=
  ∀ image : List Byte, image.length = 20 →
    ∃ s, loadImage image = .ok s ∧ s.pc = 0 ∧ s.x1 = none ∧ s.x2 = none ∧ s.run = .running ∧
      (∀ i (h : i < image.length), s.mem.peek i = image[i]) ∧ s.mem.image = image

/-- 70_reset_and_hazards.md section 2 (R153; the check's place is the spec's own decision D11): the length check comes
before any execution, and is the only source of its error kind. -/
def Obligations.WrongLengthImageIsRejected : Prop :=
  ∀ (image : List Byte) (maxSteps : Option Nat),
    (image.length ≠ 20 → loadImage image = .error .invalidMemorySize) ∧
    (run image maxSteps = .failure .invalidMemorySize ↔ image.length ≠ 20)

/-! ### Decoding -/

/-- R55: the decoder as a closed mapping from the opcode byte to operation kind and arity. -/
def Obligations.OpcodeTableIsClosed : Prop :=
  decodeOpcode 0x01 = .ok .loadWord ∧ decodeOpcode 0x02 = .ok .storeWord ∧ decodeOpcode 0x03 = .ok .add ∧
    decodeOpcode 0x04 = .ok .sub ∧ decodeOpcode 0xff = .ok .halt ∧
    (∀ b : Byte, b ≠ 0x01 → b ≠ 0x02 → b ≠ 0x03 → b ≠ 0x04 → b ≠ 0xff → decodeOpcode b = .error .unknownOpcode) ∧
    OpKind.loadWord.arity = 2 ∧ OpKind.storeWord.arity = 2 ∧ OpKind.add.arity = 2 ∧ OpKind.sub.arity = 2 ∧
    OpKind.halt.arity = 0

/-- R56: how an operand byte selects a register or an address. -/
def Obligations.OperandBytesSelect : Prop :=
  regSel 1 = .ok .x1 ∧ regSel 2 = .ok .x2 ∧
    (∀ b : Byte, b ≠ 1 → b ≠ 2 → regSel b = .error .invalidOperand) ∧
    (∀ b : Byte, effectiveAddr b = b.toNat) ∧
    (∀ (b : Byte) (m : Memory) (v : Word),
      (b.toNat ≤ 18 → ∃ w m', memReadWord m (effectiveAddr b) = .ok w ∧ memWriteWord m (effectiveAddr b) v = .ok m') ∧
      (19 ≤ b.toNat → memReadWord m (effectiveAddr b) = .error .outOfBounds ∧
        memWriteWord m (effectiveAddr b) v = .error .outOfBounds))

/-- Sanity: byte sequences written out from the table of 30_encoding.md (R51, R52, R54) decode to the instruction
they stand for. -/
def Obligations.WordsFromTheTableDecode : Prop :=
  decode [0b00000001, 0b00000001, 0b00010000] = .ok (.loadWord 1 16, []) ∧
    decode [0b00000010, 0b00000010, 0b00001110] = .ok (.storeWord 2 14, []) ∧
    decode [0b00000011, 0b00000001, 0b00000010] = .ok (.add 1 2, []) ∧
    decode [0b00000100, 0b00000010, 0b00000001] = .ok (.sub 2 1, []) ∧
    decode [0b11111111] = .ok (.halt, []) ∧
    decode [0b00000000, 0b00000001, 0b00010000] = .error .unknownOpcode

/-- Decoding and encoding are inverse in both directions, for every instruction and every operand byte; and what
does not decode is rejected by name, an unknown opcode before a missing byte. -/
def Obligations.DecodeInvertsEncode : Prop :=
  (∀ (bs rest : List Byte) (i : Instr), decode bs = .ok (i, rest) ↔ bs = encode i ++ rest) ∧
    (∀ bs : List Byte, decode bs = .error .unknownOpcode ↔
      ∃ b rest, bs = b :: rest ∧ b ∉ ([0x01, 0x02, 0x03, 0x04, 0xff] : List Byte)) ∧
    (∀ bs : List Byte, decode bs = .error .truncated ↔
      bs = [] ∨ ∃ b rest, bs = b :: rest ∧ b ∈ ([0x01, 0x02, 0x03, 0x04] : List Byte) ∧ rest.length < 2)

/-- The opcode table's legal operand values (30_encoding.md section 4): a well-formed instruction can only fault on
an uninitialized register; an ill-formed one always faults, with one of the two kinds the table names, and changes
nothing else (the spec's own decision D5). -/
def Obligations.IllFormedInstructionsFault : Prop :=
  ∀ (i : Instr) (s : State), s.run = .running →
    (i.wellFormed = true → ∀ t k, exec i s = .next t → t.run = .faulted k → k = .uninitializedRegisterRead) ∧
    (i.wellFormed = false → ∃ t k, exec i s = .next t ∧ FaultEntered k s t ∧
      (k = .invalidOperand ∨ k = .outOfBounds))

/-! ### The step -/

/-- 40_fetch_decode_sequencer.md section 2: when the bytes fetch may read from the pc on (up to 13, the spec's own decision
D2, log 10) decode to an instruction, the step runs exactly that instruction, and adds nothing around it (the meaning
itself advances the pc). -/
def Obligations.StepRunsTheDecodedInstruction : Prop :=
  ∀ (s : State) (i : Instr) (rest : List Byte), s.run = .running →
    decode (fetchableBytes s.mem s.pc.toNat) = .ok (i, rest) → step s = exec i s

/-- R76, with the other half of 93_implementation_defined.md U6: a step exists exactly in `Running`. -/
def Obligations.StepExistsExactlyInRunning : Prop :=
  ∀ s : State, (∃ t, step s = .next t) ↔ s.run = .running

/-- 40_fetch_decode_sequencer.md section 2: the model's step is the pseudocode of R75, in every state with a canonical
memory. The order of execute-stage checks is the spec's own decision D4 (log 6), the fetch limit its D2 (log 10), the
unchanged state on a fault its D5 (log 5). -/
def Obligations.StepRefinesThePseudocode : Prop :=
  ∀ s : State, s.mem.wf = true →
    (∀ t, step s = .next t → s.pseudo.step = some t.pseudo) ∧
    (s.pseudo.step = none ↔ ∀ t, step s ≠ .next t)

/-- 60_exceptions.md section 2 (R127, whose orders 5 to 7 are the spec's own decision D4, log 6; the limit 13 of orders 1
and 4 is D2, log 10; the unchanged state is D5, log 5): the first failing check, in the rule's order, is the one
reported; if none fails, no fault is. -/
def Obligations.FirstFailingCheckIsReported : Prop :=
  ∀ s : State, s.run = .running →
    let pc := s.pc.toNat
    let b0 := s.mem.peek pc
    let b1 := s.mem.peek (pc + 1)
    let b2 := s.mem.peek (pc + 2)
    if 13 < pc then StepFaults s .outOfBounds
    else if b0 ∉ ([0x01, 0x02, 0x03, 0x04, 0xff] : List Byte) then StepFaults s .unknownOpcode
    else if b0 = 0xff then ∃ t, step s = .next t ∧ t.run = .halted
    else if 13 < pc + 1 ∨ 13 < pc + 2 then StepFaults s .outOfBounds
    else if b1 ∉ ([1, 2] : List Byte) ∨ (b0 = 0x03 ∨ b0 = 0x04) ∧ b2 ∉ ([1, 2] : List Byte) then
      StepFaults s .invalidOperand
    else if (b0 = 0x01 ∨ b0 = 0x02) ∧ 19 ≤ b2.toNat then StepFaults s .outOfBounds
    else if b0 ≠ 0x01 ∧ s.NamesUninitialized b1 ∨ (b0 = 0x03 ∨ b0 = 0x04) ∧ s.NamesUninitialized b2 then
      StepFaults s .uninitializedRegisterRead
    else StepCompletes s

/-- 60_exceptions.md section 3 (R128, the spec's own decision D5; log 5): entering a fault changes the run state and
nothing else. -/
def Obligations.FaultEntryChangesOnlyTheRunState : Prop :=
  ∀ (s t : State) (k : FaultKind), step s = .next t → t.run = .faulted k → FaultEntered k s t

/-- 40_fetch_decode_sequencer.md section 2 (R78, R15): the pc is advanced by 3 by a step that raised nothing, and by no
other; that a faulting step leaves it alone is the spec's own decision D5 (log 5). It starts at 0 (R22). -/
def Obligations.PcMovesByThreeOrNotAtAll : Prop :=
  State.reset.pc = 0 ∧ (∀ image s, loadImage image = .ok s → s.pc = 0) ∧
    ∀ s t : State, step s = .next t →
      (t.run = .running → t.pc.toNat = s.pc.toNat + 3) ∧
      (t.run = .halted → t.pc = s.pc ∧ s.mem.peek s.pc.toNat = 0xff) ∧
      (∀ k, t.run = .faulted k → t.pc = s.pc)

/-- 10_state.md section 2 (R16, which the spec marks as derived): the pc from an arbitrary value, and the values it
takes from reset. The fetch limit is the spec's own decision D2 (log 10), the unchanged state on a fault D5 (log 5). -/
def Obligations.PcStaysInRange : Prop :=
  (∀ s t : State, step s = .next t →
    (13 < s.pc.toNat → FaultEntered .outOfBounds s t) ∧
    (s.pc.toNat ≤ 11 → t.run = .running → t.pc.toNat = s.pc.toNat + 3 ∧ t.pc.toNat ≤ 14) ∧
    (s.pc.toNat = 12 ∨ s.pc.toNat = 13 → s.mem.peek s.pc.toNat ≠ 0xff → ∃ k, FaultEntered k s t)) ∧
  (∀ image s n t, loadImage image = .ok s → stepTimes n s = some t → t.pc.toNat ∈ [0, 3, 6, 9, 12])

/-- 40_fetch_decode_sequencer.md section 4 (frame law), one step: memory changes in the word a `store_word` names and
nowhere else; a register changes only as the destination of `load_word`, `add` or `sub`; a fault changes neither (the
spec's own decision D5, log 5). -/
def Obligations.StepChangesOnlyWhatTheInstructionNames : Prop :=
  ∀ s t : State, step s = .next t →
    (∀ a, t.mem.peek a ≠ s.mem.peek a →
      ∃ b1 b2, fetchInstr s.mem s.pc.toNat = .ok (.storeWord b1 b2) ∧
        (a = effectiveAddr b2 ∨ a = effectiveAddr b2 + 1) ∧ t.run = .running) ∧
    (∀ r : Gpr, t.reg r ≠ s.reg r → t.run = .running ∧
      ∃ b2, fetchInstr s.mem s.pc.toNat = .ok (.loadWord r.address b2) ∨
        fetchInstr s.mem s.pc.toNat = .ok (.add r.address b2) ∨
        fetchInstr s.mem s.pc.toNat = .ok (.sub r.address b2))

/-- 10_state.md section 1 (R12, its third and fourth points): no step clears a valid bit, and only a completed
`load_word` of that register sets one. -/
def Obligations.OnlyLoadWordSetsAValidBit : Prop :=
  ∀ (s t : State) (r : Gpr), step s = .next t →
    (s.valid r = true → t.valid r = true) ∧
    (s.valid r = false → t.valid r = true → t.run = .running ∧
      ∃ b2, fetchInstr s.mem s.pc.toNat = .ok (.loadWord r.address b2))

/-- 60_exceptions.md section 8 (R141, which the spec marks as derived): a fault of a step comes from the fetch unit or
the decoder, or is one the matrix gives the instruction; and every execute-stage entry of the matrix occurs, for some
operands of that opcode. -/
def Obligations.FaultsFollowTheMatrix : Prop :=
  (∀ (s t : State) (k : FaultKind), step s = .next t → t.run = .faulted k →
    (fetchInstr s.mem s.pc.toNat = .error k ∧ (k = .outOfBounds ∨ k = .unknownOpcode)) ∨
      ∃ i, fetchInstr s.mem s.pc.toNat = .ok i ∧ canRaise i k = true) ∧
  (∀ (i : Instr) (k : FaultKind), canRaise i k = true →
    ∃ (j : Instr) (s t : State), (encode j).head? = (encode i).head? ∧ s.run = .running ∧
      exec j s = .next t ∧ FaultEntered k s t)

/-! ### Memory -/

/-- R33: byte access, bounds-checked against 0 to 19. -/
def Obligations.ByteAccessIsBoundsChecked : Prop :=
  ∀ (m : Memory) (a : Nat) (v : Byte), m.wf = true →
    (a ≤ 19 → memReadByte m a = .ok (m.peek a) ∧ ∃ m', memWriteByte m a v = .ok m' ∧ m'.wf = true ∧
      m'.peek a = v ∧ ∀ b, b ≠ a → m'.peek b = m.peek b) ∧
    (19 < a → memReadByte m a = .error .outOfBounds ∧ memWriteByte m a v = .error .outOfBounds)

/-- R38: the word read. -/
def Obligations.WordReadIsLittleEndian : Prop :=
  ∀ (m : Memory) (a : Nat),
    (19 < a + 1 → memReadWord m a = .error .outOfBounds) ∧
    (a + 1 ≤ 19 → ∃ v, memReadWord m a = .ok v ∧ v.toNat = (m.peek a).toNat + (m.peek (a + 1)).toNat * 256)

/-- 20_memory.md section 3 (R39): the word write. That a failing one writes neither byte is the spec's own decision D5. -/
def Obligations.WordWriteIsLittleEndian : Prop :=
  ∀ (m : Memory) (a : Nat) (v : Word), m.wf = true →
    (19 < a + 1 → memWriteWord m a v = .error .outOfBounds) ∧
    (a + 1 ≤ 19 → ∃ m', memWriteWord m a v = .ok m' ∧ m'.wf = true ∧ (m'.peek a).toNat = v.toNat % 256 ∧
      (m'.peek (a + 1)).toNat = v.toNat / 256 ∧ ∀ b, b ≠ a → b ≠ a + 1 → m'.peek b = m.peek b)

/-- 20_memory.md section 2 (R36, the spec's own decision D2): the fetch limit and its three consequences. -/
def Obligations.FetchStopsAtThirteen : Prop :=
  (∀ (m : Memory) (a : Nat), (a ≤ 13 → fetchByte m a = .ok (m.peek a)) ∧
    (14 ≤ a → fetchByte m a = .error .outOfBounds)) ∧
  (∀ s : State, s.run = .running →
    (14 ≤ s.pc.toNat → StepFaults s .outOfBounds) ∧
    (s.pc.toNat = 12 ∨ s.pc.toNat = 13 →
      (s.mem.peek s.pc.toNat ∈ ([0x01, 0x02, 0x03, 0x04] : List Byte) → StepFaults s .outOfBounds) ∧
      (s.mem.peek s.pc.toNat = 0xff → ∃ t, step s = .next t ∧ t.run = .halted)))

/-- 40_fetch_decode_sequencer.md section 4 (R85, which the spec marks as derived; its fetch side, log 14; it rests on the
fetch limit D2, log 10): at a pc of a run from reset, what is fetched does not depend on byte 13 nor on any byte above
it. -/
def Obligations.FetchIgnoresByteThirteenAndAbove : Prop :=
  ∀ (m m' : Memory) (pc : Word), pc ∈ reachablePcs → (∀ a, a ≤ 12 → m'.peek a = m.peek a) →
    fetchInstr m' pc.toNat = fetchInstr m pc.toNat

/-! ### Loads and stores -/

/-- 41_load_store.md, `load_word` (R90). `InvalidOperand` before `OutOfBounds` is the spec's own decision D4 (log 6), the
fetch limit its D2 (log 10), the unchanged state on a fault its D5 (log 5). -/
def Obligations.LoadWordFollowsItsRule : Prop :=
  ∀ (b1 b2 : Byte) (s : State),
    encode (.loadWord b1 b2) = [0x01, b1, b2] ∧
    (b1 ≠ 1 → b1 ≠ 2 → ∃ t, exec (.loadWord b1 b2) s = .next t ∧ FaultEntered .invalidOperand s t) ∧
    (∀ r : Gpr, b1 = r.address → 19 ≤ b2.toNat →
      ∃ t, exec (.loadWord b1 b2) s = .next t ∧ FaultEntered .outOfBounds s t) ∧
    (∀ r : Gpr, b1 = r.address → b2.toNat ≤ 18 →
      ∃ t v, exec (.loadWord b1 b2) s = .next t ∧ t.reg r = some v ∧
        v.toNat = (s.mem.peek b2.toNat).toNat + 256 * (s.mem.peek (b2.toNat + 1)).toNat ∧
        SameRegsBut r s t ∧ SameBytes s t ∧ t.pc = s.pc + 3 ∧ t.run = s.run) ∧
    (s.run = .running → s.mem.peek s.pc.toNat = 0x01 → 13 < s.pc.toNat + 2 → StepFaults s .outOfBounds)

/-- 41_load_store.md, `store_word` (R91). The order of the checks is the spec's own decision D4 (log 6), the fetch limit its
D2 (log 10), the unchanged state on a fault its D5 (log 5). -/
def Obligations.StoreWordFollowsItsRule : Prop :=
  ∀ (b1 b2 : Byte) (s : State), s.mem.wf = true →
    encode (.storeWord b1 b2) = [0x02, b1, b2] ∧
    (b1 ≠ 1 → b1 ≠ 2 → ∃ t, exec (.storeWord b1 b2) s = .next t ∧ FaultEntered .invalidOperand s t) ∧
    (∀ r : Gpr, b1 = r.address → 19 ≤ b2.toNat →
      ∃ t, exec (.storeWord b1 b2) s = .next t ∧ FaultEntered .outOfBounds s t) ∧
    (∀ r : Gpr, b1 = r.address → b2.toNat ≤ 18 → s.valid r = false →
      ∃ t, exec (.storeWord b1 b2) s = .next t ∧ FaultEntered .uninitializedRegisterRead s t) ∧
    (∀ (r : Gpr) (v : Word), b1 = r.address → b2.toNat ≤ 18 → s.reg r = some v →
      ∃ t, exec (.storeWord b1 b2) s = .next t ∧
        (t.mem.peek b2.toNat).toNat = v.toNat % 256 ∧ (t.mem.peek (b2.toNat + 1)).toNat = v.toNat / 256 ∧
        SameBytesBut b2.toNat s t ∧ SameRegs s t ∧ t.pc = s.pc + 3 ∧ t.run = s.run) ∧
    (s.run = .running → s.mem.peek s.pc.toNat = 0x02 → 13 < s.pc.toNat + 2 → StepFaults s .outOfBounds)

/-- 41_load_store.md (R92, its second law marked as derived): both round-trip laws. -/
def Obligations.LoadStoreRoundTrip : Prop :=
  ∀ (s : State) (r : Gpr) (b : Byte), s.mem.wf = true → b.toNat ≤ 18 →
    (∀ a : Byte, a.toNat ≤ 18 →
      ∃ t u, exec (.loadWord r.address a) s = .next t ∧ exec (.storeWord r.address b) t = .next u ∧
        u.run = s.run ∧ u.mem.peek b.toNat = s.mem.peek a.toNat ∧
        u.mem.peek (b.toNat + 1) = s.mem.peek (a.toNat + 1)) ∧
    (∀ q : Gpr, s.valid r = true →
      ∃ t u, exec (.storeWord r.address b) s = .next t ∧ exec (.loadWord q.address b) t = .next u ∧
        u.run = s.run ∧ u.reg q = s.reg r)

/-- 20_memory.md section 7 (R47; that such a store is allowed is the spec's own decision D3): the bytes a `store_word`
wrote are what every later fetch sees, and the step that stores over its own bytes still goes on to pc + 3. -/
def Obligations.StoreIsSeenByLaterFetches : Prop :=
  ∀ (s : State) (b1 b2 : Byte) (r : Gpr) (v : Word), s.mem.wf = true → s.run = .running → s.pc.toNat ≤ 11 →
    s.mem.peek s.pc.toNat = 0x02 → s.mem.peek (s.pc.toNat + 1) = b1 → s.mem.peek (s.pc.toNat + 2) = b2 →
    b1 = r.address → b2.toNat ≤ 18 → s.reg r = some v →
    ∃ t, step s = .next t ∧ t.run = .running ∧ t.pc = s.pc + 3 ∧
      ∀ a, a ≤ 13 → fetchByte t.mem a =
        .ok (if a = b2.toNat then lowByte v else if a = b2.toNat + 1 then highByte v else s.mem.peek a)

/-- Frame of `store_word` (41_load_store.md): no register changes, and of memory only the word at the effective
address; a fault changes only the run state (the spec's own decision D5, log 5). -/
def Obligations.StoreWordFrame : Prop :=
  ∀ (b1 b2 : Byte) (s t : State), exec (.storeWord b1 b2) s = .next t →
    SameRegs s t ∧ (∀ addr, effectiveAddr b2 = addr → SameBytesBut addr s t) ∧
    (t.run = s.run ∨ ∃ k, FaultEntered k s t)

/-- Frame of the register forms `load_word`, `add`, `sub` (41_load_store.md, 42_arithmetic.md): no byte of memory
changes, and no register but the one the first operand byte names; a fault changes only the run state (the spec's own
decision D5, log 5). -/
def Obligations.LoadAndArithmeticFrame : Prop :=
  ∀ (i : Instr) (b1 b2 : Byte) (s t : State), i = .loadWord b1 b2 ∨ i = .add b1 b2 ∨ i = .sub b1 b2 →
    exec i s = .next t →
    SameBytes s t ∧ (∀ r : Gpr, r.address ≠ b1 → t.reg r = s.reg r) ∧
    (t.run = s.run ∨ ∃ k, FaultEntered k s t)

/-! ### Arithmetic -/

/-- 42_arithmetic.md, `add` (R100). The order of the checks is the spec's own decision D4 (log 6), the fetch limit its D2
(log 10), the unchanged state on a fault its D5 (log 5); the wrap-around is D12 (log 9). -/
def Obligations.AddFollowsItsRule : Prop :=
  ∀ (b1 b2 : Byte) (s : State),
    encode (.add b1 b2) = [0x03, b1, b2] ∧
    (b1 ∉ ([1, 2] : List Byte) ∨ b2 ∉ ([1, 2] : List Byte) →
      ∃ t, exec (.add b1 b2) s = .next t ∧ FaultEntered .invalidOperand s t) ∧
    (∀ a b : Gpr, b1 = a.address → b2 = b.address → s.valid a = false ∨ s.valid b = false →
      ∃ t, exec (.add b1 b2) s = .next t ∧ FaultEntered .uninitializedRegisterRead s t) ∧
    (∀ (a b : Gpr) (va vb : Word), b1 = a.address → b2 = b.address → s.reg a = some va → s.reg b = some vb →
      ∃ t v, exec (.add b1 b2) s = .next t ∧ t.reg a = some v ∧ v.toNat = (va.toNat + vb.toNat) % 65536 ∧
        SameRegsBut a s t ∧ SameBytes s t ∧ t.pc = s.pc + 3 ∧ t.run = s.run) ∧
    (s.run = .running → s.mem.peek s.pc.toNat = 0x03 → 13 < s.pc.toNat + 2 → StepFaults s .outOfBounds)

/-- 42_arithmetic.md, `sub` (R101); A is the minuend. The order of the checks is the spec's own decision D4 (log 6), the
fetch limit its D2 (log 10), the unchanged state on a fault its D5 (log 5); the wrap-around is D12 (log 9). -/
def Obligations.SubFollowsItsRule : Prop :=
  ∀ (b1 b2 : Byte) (s : State),
    encode (.sub b1 b2) = [0x04, b1, b2] ∧
    (b1 ∉ ([1, 2] : List Byte) ∨ b2 ∉ ([1, 2] : List Byte) →
      ∃ t, exec (.sub b1 b2) s = .next t ∧ FaultEntered .invalidOperand s t) ∧
    (∀ a b : Gpr, b1 = a.address → b2 = b.address → s.valid a = false ∨ s.valid b = false →
      ∃ t, exec (.sub b1 b2) s = .next t ∧ FaultEntered .uninitializedRegisterRead s t) ∧
    (∀ (a b : Gpr) (va vb : Word), b1 = a.address → b2 = b.address → s.reg a = some va → s.reg b = some vb →
      ∃ t v, exec (.sub b1 b2) s = .next t ∧ t.reg a = some v ∧
        (v.toNat : Int) = ((va.toNat : Int) - (vb.toNat : Int)) % 65536 ∧
        SameRegsBut a s t ∧ SameBytes s t ∧ t.pc = s.pc + 3 ∧ t.run = s.run) ∧
    (s.run = .running → s.mem.peek s.pc.toNat = 0x04 → 13 < s.pc.toNat + 2 → StepFaults s .outOfBounds)

/-- 42_arithmetic.md (R104, which the spec marks as derived): what a successful `add` or `sub` leaves alone. -/
def Obligations.AddAndSubWriteOnlyTheirDestination : Prop :=
  ∀ (i : Instr) (a b : Gpr) (s : State), i = .add a.address b.address ∨ i = .sub a.address b.address →
    s.valid a = true → s.valid b = true →
    ∃ t, exec i s = .next t ∧ SameBytes s t ∧ SameRegsBut a s t ∧ (∀ r, t.valid r = s.valid r) ∧ t.run = s.run ∧
      t.pc = s.pc + 3

/-- 42_arithmetic.md (R103; that A = B is allowed is the spec's own decision D17, log 10; the unchanged state on a fault is
D5, log 5): source and destination the same. -/
def Obligations.SameRegisterDoublesOrClears : Prop :=
  ∀ (r : Gpr) (s : State),
    (∀ v, s.reg r = some v →
      (∃ t w, exec (.add r.address r.address) s = .next t ∧ t.run = s.run ∧ t.reg r = some w ∧
        w.toNat = 2 * v.toNat % 65536) ∧
      (∃ t, exec (.sub r.address r.address) s = .next t ∧ t.run = s.run ∧ t.reg r = some 0)) ∧
    (s.valid r = false →
      (∃ t, exec (.add r.address r.address) s = .next t ∧ FaultEntered .uninitializedRegisterRead s t) ∧
      (∃ t, exec (.sub r.address r.address) s = .next t ∧ FaultEntered .uninitializedRegisterRead s t))

/-- 42_arithmetic.md (R102, its law on the pair, which the spec marks as derived): `sub A, B` after `add A, B` gives `A`
back, when A and B differ. -/
def Obligations.SubUndoesAdd : Prop :=
  ∀ (a b : Gpr) (s : State), a ≠ b → s.valid a = true → s.valid b = true →
    ∃ t u, exec (.add a.address b.address) s = .next t ∧ exec (.sub a.address b.address) t = .next u ∧
      SameRegs s u ∧ SameBytes s u ∧ u.run = s.run

/-- 10_state.md section 1 and 40_fetch_decode_sequencer.md section 2 (R13, R79): no instruction reads the pc. Running
it with another pc gives the same memory, registers and run state. -/
def Obligations.NoInstructionReadsThePc : Prop :=
  ∀ (i : Instr) (s t : State) (p : Word), exec i s = .next t →
    ∃ u, exec i { s with pc := p } = .next u ∧ u.mem = t.mem ∧ SameRegs t u ∧ u.run = t.run

/-! ### Halt -/

/-- 43_halt.md (R110): `halt`, and that 0xff in an operand position is none. The kind named where two checks fail is the
spec's own decision D4 (R127; log 6), `OutOfBounds` for a pc above 13 its D2 (log 10), the unchanged state on a fault its
D5 (log 5); that `Halted` keeps pc and registers is D13 (log 13). -/
def Obligations.HaltFollowsItsRule : Prop :=
  encode .halt = [0xff] ∧
    ∀ s : State,
      (∃ t, exec .halt s = .next t ∧ t.run = .halted ∧ t.pc = s.pc ∧ SameRegs s t ∧ t.mem = s.mem) ∧
      (s.run = .running → s.mem.peek s.pc.toNat = 0xff →
        (s.pc.toNat ≤ 13 → step s = exec .halt s) ∧ (13 < s.pc.toNat → StepFaults s .outOfBounds)) ∧
      (∀ t u, exec .halt s = .next t → step t ≠ .next u) ∧
      (s.run = .running → s.pc.toNat ≤ 11 → s.mem.peek s.pc.toNat ∈ ([0x01, 0x02, 0x03, 0x04] : List Byte) →
        s.mem.peek (s.pc.toNat + 1) = 0xff → StepFaults s .invalidOperand) ∧
      (s.run = .running → s.pc.toNat ≤ 11 → s.mem.peek s.pc.toNat ∈ ([0x01, 0x02] : List Byte) →
        s.mem.peek (s.pc.toNat + 1) ∈ ([1, 2] : List Byte) → s.mem.peek (s.pc.toNat + 2) = 0xff →
        StepFaults s .outOfBounds) ∧
      (s.run = .running → s.pc.toNat ≤ 11 → s.mem.peek s.pc.toNat ∈ ([0x03, 0x04] : List Byte) →
        s.mem.peek (s.pc.toNat + 2) = 0xff → StepFaults s .invalidOperand)

/-! ### Invariants and runs -/

/-- The invariant holds where a run starts: in the reset state and after every accepted image. -/
def Obligations.TheInvariantHoldsAtReset : Prop :=
  State.reset.Inv ∧ ∀ image s, loadImage image = .ok s → s.Inv

/-- The invariant (canonical memory, pc one of 0, 3, 6, 9, 12) is kept by every step from every state that has it. -/
def Obligations.StepKeepsTheInvariant : Prop :=
  ∀ s t : State, s.Inv → step s = .next t → t.Inv

/-- 70_reset_and_hazards.md section 6 (R166, which the spec marks as derived; it rests on the fetch limit D2, log 10): the
step bound. Before its end the run is at pc = 3k after k steps; it ends within 5 steps; and a run of five steps ends in
`Halted`, `UnknownOpcode` or `OutOfBounds`. -/
def Obligations.EveryRunEndsWithinFiveSteps : Prop :=
  ∀ image : List Byte, image.length = 20 →
    ∃ s n t, loadImage image = .ok s ∧ 1 ≤ n ∧ n ≤ 5 ∧ stepTimes n s = some t ∧ t.run.terminal = true ∧
      (∀ k, k < n → ∃ u, stepTimes k s = some u ∧ u.run = .running ∧ u.pc.toNat = 3 * k) ∧
      (n = 5 → t.run = .halted ∨ t.run = .faulted .unknownOpcode ∨ t.run = .faulted .outOfBounds)

/-- 70_reset_and_hazards.md section 2 (R158, which the spec marks as derived; R157): the outcome of a run is read off the
state that ends it, within the bound of 5 steps of log 11 (DEDUCED; R166). -/
def Obligations.RunResultIsTheEndOfTheRun : Prop :=
  ∀ (image : List Byte) (s : State), loadImage image = .ok s →
    ∃ n t, 1 ≤ n ∧ n ≤ 5 ∧ stepTimes n s = some t ∧
      (∀ k, k < n → ∃ u, stepTimes k s = some u ∧ u.run = .running) ∧
      ((t.run = .halted ∧ run image = .success t.mem.image) ∨
        ∃ k, t.run = .faulted k ∧ run image = .failure (.step k))

/-- 70_reset_and_hazards.md section 6 (R167, the spec's own decision D8): any `MAX_STEPS` of 5 or more gives the outcome
of the run without one (whose bound is 5, log 11, DEDUCED). -/
def Obligations.MaxStepsOfFiveOrMoreChangesNothing : Prop :=
  ∀ (image : List Byte) (n : Nat), 5 ≤ n → run image (some n) = run image

/-- 70_reset_and_hazards.md section 6 (R168): a run that halts returns the image except for bytes written by its
`store_word` steps. Its trace of 5 steps rests on the bound of log 11 (DEDUCED; R166, which the spec marks as derived). -/
def Obligations.FinalMemoryIsTheImageButForStores : Prop :=
  ∀ (image final : List Byte) (s : State), loadImage image = .ok s → run image = .success final →
    final.length = 20 ∧
    ∀ a, final[a]? ≠ image[a]? → ∃ u ∈ trace 5 s, a ∈ u.storedAddrs

/-- The row's interface, the model's own choice of log 2: a word placed with `withFetchWord` is the very next instruction,
and placing it leaves the registers alone. -/
def Obligations.PlacedWordRunsNext : Prop :=
  ∀ (s : State) (nbits w : Nat) (i : Instr), s.mem.wf = true → decodeTableWord nbits w = some i →
    step (s.withFetchWord nbits w) = exec i (s.withFetchWord nbits w) ∧ SameRegs s (s.withFetchWord nbits w)
end

