-- ==== Sys2Proof/Laws/Decode.lean ====
section
/-! SUPPORT. Laws of the decoder and the encoder. -/

namespace Sys2Proof

@[simp] theorem decodeOpcode_opcode (k : OpKind) : decodeOpcode k.opcode = .ok k := by cases k <;> rfl

/-- The opcode byte determines the operation, and the operation its byte. -/
theorem decodeOpcode_ok {b : Byte} {k : OpKind} (h : decodeOpcode b = .ok k) : b = k.opcode := by
  unfold decodeOpcode at h
  split at h
  · cases h; assumption
  split at h
  · cases h; assumption
  split at h
  · cases h; assumption
  split at h
  · cases h; assumption
  split at h
  · cases h; assumption
  · cases h

/-- The decoder has one way to refuse. -/
theorem decodeOpcode_error {b : Byte} {e : DecodeError} (h : decodeOpcode b = .error e) :
    e = .unknownOpcode ∧ b ≠ 0x01 ∧ b ≠ 0x02 ∧ b ≠ 0x03 ∧ b ≠ 0x04 ∧ b ≠ 0xff := by
  unfold decodeOpcode at h
  split at h
  · cases h
  split at h
  · cases h
  split at h
  · cases h
  split at h
  · cases h
  split at h
  · cases h
  · cases h; exact ⟨rfl, ‹_›, ‹_›, ‹_›, ‹_›, ‹_›⟩

theorem decodeOpcode_unknown {b : Byte} (h1 : b ≠ 0x01) (h2 : b ≠ 0x02) (h3 : b ≠ 0x03) (h4 : b ≠ 0x04)
    (h5 : b ≠ 0xff) : decodeOpcode b = .error .unknownOpcode := by
  simp only [decodeOpcode, if_neg h1, if_neg h2, if_neg h3, if_neg h4, if_neg h5]

/-- Only `halt` has no operand. -/
theorem OpKind.arity_eq_zero {k : OpKind} : k.arity = 0 ↔ k = .halt := by cases k <;> decide

theorem OpKind.encode_triplet {k : OpKind} (h : k ≠ .halt) (b1 b2 : Byte) :
    encode (k.triplet b1 b2) = [k.opcode, b1, b2] := by
  cases k <;> first | rfl | exact absurd rfl h

theorem addrOperandLegal_iff (b : Byte) : addrOperandLegal b = true ↔ b.toNat ≤ 18 := by
  simp only [addrOperandLegal, Config.memSize, decide_eq_true_eq]; omega

theorem regOperandLegal_iff (b : Byte) : regOperandLegal b = true ↔ b = 1 ∨ b = 2 := by
  simp [regOperandLegal]

end Sys2Proof
end

