-- ==== Sys2Proof/Laws/Memory.lean ====
section
/-! SUPPORT. Laws of the memory: read after write, the canonical form and its uniqueness, the placing of bytes. -/

namespace Sys2Proof.Machine.Memory

@[simp] theorem peek_nil (a : Nat) : peek [] a = 0 := rfl

theorem peek_entry (a b : Nat) (v : Byte) (m : Memory) : peek ((b, v) :: m) a = if a = b then v else peek m a := rfl

theorem wfFrom_entry (lo a : Nat) (v : Byte) (m : Memory) :
    wfFrom lo ((a, v) :: m) = true ↔ lo ≤ a ∧ a < 20 ∧ v ≠ 0 ∧ wfFrom (a + 1) m = true := by
  simp [wfFrom, and_assoc]

theorem wfFrom_mono {lo lo' : Nat} {m : Memory} (hlo : lo' ≤ lo) (h : wfFrom lo m = true) : wfFrom lo' m = true := by
  cases m with
  | nil => rfl
  | cons c m =>
    obtain ⟨a, v⟩ := c
    obtain ⟨h1, h2⟩ := (wfFrom_entry lo a v m).mp h
    exact (wfFrom_entry lo' a v m).mpr ⟨by omega, h2⟩

/-- Below the lowest listed address every byte is the unlisted one. -/
theorem peek_below {lo a : Nat} {m : Memory} (h : wfFrom lo m = true) (ha : a < lo) : peek m a = 0 := by
  induction m generalizing lo with
  | nil => rfl
  | cons c m ih =>
    obtain ⟨b, v⟩ := c
    obtain ⟨h1, -, -, h4⟩ := (wfFrom_entry lo b v m).mp h
    rw [peek_entry, if_neg (by omega), ih h4 (by omega)]

/-- Outside the memory no byte is listed. -/
theorem peek_outside {lo a : Nat} {m : Memory} (h : wfFrom lo m = true) (ha : 20 ≤ a) : peek m a = 0 := by
  induction m generalizing lo with
  | nil => rfl
  | cons c m ih =>
    obtain ⟨b, v⟩ := c
    obtain ⟨-, h2, -, h4⟩ := (wfFrom_entry lo b v m).mp h
    rw [peek_entry, if_neg (by omega), ih h4]

theorem peek_cons_same {lo a : Nat} {m : Memory} (h : wfFrom lo m = true) (ha : a < lo) (v : Byte) :
    peek (cons a v m) a = v := by
  unfold cons
  split
  · next hv => rw [peek_below h ha, hv]
  · rw [peek_entry, if_pos rfl]

theorem peek_cons_other {a b : Nat} (h : b ≠ a) (v : Byte) (m : Memory) : peek (cons a v m) b = peek m b := by
  unfold cons
  split
  · rfl
  · rw [peek_entry, if_neg h]

theorem wfFrom_cons {lo a : Nat} {m : Memory} (h : wfFrom (a + 1) m = true) (hlo : lo ≤ a) (ha : a < 20)
    (v : Byte) : wfFrom lo (cons a v m) = true := by
  unfold cons
  split
  · exact wfFrom_mono (by omega) h
  · next hv => exact (wfFrom_entry lo a v m).mpr ⟨hlo, ha, hv, h⟩

/-- Read after write, at the address written. -/
theorem peek_poke_same {lo : Nat} {m : Memory} (h : wfFrom lo m = true) (a : Nat) (v : Byte) :
    peek (poke m a v) a = v := by
  induction m generalizing lo with
  | nil => exact peek_cons_same (lo := a + 1) rfl (by omega) v
  | cons c m ih =>
    obtain ⟨b, w⟩ := c
    obtain ⟨-, h2, h3, h4⟩ := (wfFrom_entry lo b w m).mp h
    unfold poke
    split
    · next hab => exact peek_cons_same ((wfFrom_entry b b w m).mpr ⟨le_refl b, h2, h3, h4⟩) hab v
    · split
      · next hab => subst hab; exact peek_cons_same h4 (by omega) v
      · next hab => rw [peek_entry, if_neg hab]; exact ih h4

/-- Read after write, at every other address; of every list, canonical or not. -/
theorem peek_poke_other {a b : Nat} (hne : b ≠ a) (m : Memory) (v : Byte) : peek (poke m a v) b = peek m b := by
  induction m with
  | nil => exact peek_cons_other hne v []
  | cons c m ih =>
    obtain ⟨d, w⟩ := c
    unfold poke
    split
    · exact peek_cons_other hne v _
    · split
      · next had => rw [peek_cons_other hne, peek_entry, if_neg (had ▸ hne)]
      · rw [peek_entry, peek_entry, ih]

theorem peek_poke {m : Memory} (h : m.wf = true) (a b : Nat) (v : Byte) :
    peek (poke m a v) b = if b = a then v else peek m b := by
  split
  · next hb => subst hb; exact peek_poke_same h b v
  · next hb => exact peek_poke_other hb m v

theorem wfFrom_poke {lo a : Nat} {m : Memory} (h : wfFrom lo m = true) (hlo : lo ≤ a) (ha : a < 20)
    (v : Byte) : wfFrom lo (poke m a v) = true := by
  induction m generalizing lo with
  | nil => exact wfFrom_cons rfl hlo ha v
  | cons c m ih =>
    obtain ⟨b, w⟩ := c
    obtain ⟨h1, h2, h3, h4⟩ := (wfFrom_entry lo b w m).mp h
    unfold poke
    split
    · next hab => exact wfFrom_cons ((wfFrom_entry (a + 1) b w m).mpr ⟨by omega, h2, h3, h4⟩) hlo ha v
    · split
      · next hab => subst hab; exact wfFrom_cons h4 hlo ha v
      · exact (wfFrom_entry lo b w _).mpr ⟨h1, h2, h3, ih h4 (by omega)⟩

/-- A write inside the memory keeps the canonical form. -/
theorem wf_poke {m : Memory} (h : m.wf = true) {a : Nat} (ha : a < 20) (v : Byte) :
    (poke m a v).wf = true :=
  wfFrom_poke h (Nat.zero_le a) ha v

/-- The canonical form is canonical: two such memories with the same bytes are the same list. -/
theorem ext_of_wfFrom {lo : Nat} {m m' : Memory} (h : wfFrom lo m = true) (h' : wfFrom lo m' = true)
    (heq : ∀ a, peek m a = peek m' a) : m = m' := by
  induction m generalizing lo m' with
  | nil =>
    cases m' with
    | nil => rfl
    | cons c m' =>
      obtain ⟨b, w⟩ := c
      have hw := heq b
      rw [peek_nil, peek_entry, if_pos rfl] at hw
      exact absurd hw.symm ((wfFrom_entry lo b w m').mp h').2.2.1
  | cons c m ih =>
    obtain ⟨a, v⟩ := c
    obtain ⟨-, -, h3, h4⟩ := (wfFrom_entry lo a v m).mp h
    cases m' with
    | nil =>
      have hv := heq a
      rw [peek_entry, if_pos rfl, peek_nil] at hv
      exact absurd hv h3
    | cons c' m' =>
      obtain ⟨b, w⟩ := c'
      obtain ⟨-, -, h3', h4'⟩ := (wfFrom_entry lo b w m').mp h'
      have hav := heq a
      have hbw := heq b
      rw [peek_entry, if_pos rfl, peek_entry] at hav
      rw [peek_entry, peek_entry, if_pos rfl] at hbw
      have hab : a = b := by
        rcases lt_trichotomy a b with hlt | heqab | hgt
        · rw [if_neg (by omega), peek_below h4' (by omega)] at hav
          exact absurd hav h3
        · exact heqab
        · rw [if_neg (by omega), peek_below h4 (by omega)] at hbw
          exact absurd hbw.symm h3'
      subst hab
      rw [if_pos rfl] at hav
      subst hav
      have htail : m = m' := ih h4 h4' fun c => by
        by_cases hc : c = a
        · subst hc; rw [peek_below h4 (by omega), peek_below h4' (by omega)]
        · have hcc := heq c
          rwa [peek_entry, peek_entry, if_neg hc, if_neg hc] at hcc
      rw [htail]

theorem ext_of_wf {m m' : Memory} (h : m.wf = true) (h' : m'.wf = true) (heq : ∀ a, peek m a = peek m' a) : m = m' :=
  ext_of_wfFrom h h' heq

end Sys2Proof.Machine.Memory

namespace Sys2Proof.Machine

/-- Placing bytes keeps the canonical form. -/
theorem wf_placeBytes (bs : List Byte) {m : Memory} (h : m.wf = true) (a : Nat) : (placeBytes m a bs).wf = true := by
  induction bs generalizing m a with
  | nil => exact h
  | cons b bs ih =>
    unfold placeBytes memWriteByte
    by_cases ha : a < 20
    · rw [if_pos ha]; exact ih (Memory.wf_poke h ha b) (a + 1)
    · rw [if_neg ha]; exact ih h (a + 1)

/-- Placing bytes at `a` changes no byte below `a`. -/
theorem peek_placeBytes_below (bs : List Byte) (m : Memory) {a c : Nat} (hc : c < a) :
    (placeBytes m a bs).peek c = m.peek c := by
  induction bs generalizing m a with
  | nil => rfl
  | cons b bs ih =>
    unfold placeBytes memWriteByte
    by_cases ha : a < 20
    · rw [if_pos ha]; exact (ih _ (by omega)).trans (Memory.peek_poke_other (by omega) m b)
    · rw [if_neg ha]; exact ih _ (by omega)

/-- Bytes that fit in the memory are found where they were placed. -/
theorem peek_placeBytes (bs : List Byte) {m : Memory} (h : m.wf = true) {a i : Nat} (hi : i < bs.length)
    (hfit : a + bs.length ≤ 20) : (placeBytes m a bs).peek (a + i) = bs[i] := by
  induction bs generalizing m a i with
  | nil => exact absurd hi (by simp)
  | cons b bs ih =>
    simp only [List.length_cons] at hi hfit
    unfold placeBytes memWriteByte
    rw [if_pos (show a < 20 by omega)]
    cases i with
    | zero => exact (peek_placeBytes_below bs _ (by omega)).trans (Memory.peek_poke_same h a b)
    | succ i =>
      have hstep := ih (Memory.wf_poke h (show a < 20 by omega) b) (a := a + 1) (i := i) (by omega) (by omega)
      rwa [show a + 1 + i = a + (i + 1) by omega] at hstep

end Sys2Proof.Machine
end

