-- ==== Sys2Proof/Laws/Ops.lean ====
section
/-! SUPPORT. The spec lemma of each shared operation: what it answers, said once. -/

namespace Sys2Proof.Machine

/-- A sub-step that answers a value hands it on. -/
theorem bind_ok {α β : Type} (x : α) (f : α → Except FaultKind β) : (Except.ok x >>= f) = f x := rfl

/-- A sub-step that raises ends the stage. -/
theorem bind_error {α β : Type} (k : FaultKind) (f : α → Except FaultKind β) :
    (Except.error k >>= f) = .error k := rfl

/-! ### Byte order -/

theorem wordOfBytes_toNat (low high : Byte) : (wordOfBytes low high).toNat = low.toNat + high.toNat * 256 := by
  have := low.isLt; have := high.isLt
  simp only [wordOfBytes, BitVec.toNat_ofNat]; omega

theorem lowByte_toNat (v : Word) : (lowByte v).toNat = v.toNat % 256 := by
  simp only [lowByte, BitVec.toNat_ofNat]; omega

theorem highByte_toNat (v : Word) : (highByte v).toNat = v.toNat / 256 := by
  have := v.isLt
  simp only [highByte, BitVec.toNat_ofNat]; omega

@[simp] theorem wordOfBytes_low_high (v : Word) : wordOfBytes (lowByte v) (highByte v) = v := by
  apply BitVec.eq_of_toNat_eq
  rw [wordOfBytes_toNat, lowByte_toNat, highByte_toNat]; omega

@[simp] theorem lowByte_wordOfBytes (low high : Byte) : lowByte (wordOfBytes low high) = low := by
  apply BitVec.eq_of_toNat_eq
  have := low.isLt
  rw [lowByte_toNat, wordOfBytes_toNat]; omega

@[simp] theorem highByte_wordOfBytes (low high : Byte) : highByte (wordOfBytes low high) = high := by
  apply BitVec.eq_of_toNat_eq
  have := low.isLt
  rw [highByte_toNat, wordOfBytes_toNat]; omega

/-! ### Accesses -/

theorem memReadByte_ok {m : Memory} {a : Nat} (h : a < 20) : memReadByte m a = .ok (m.peek a) := if_pos h

theorem memReadByte_error {m : Memory} {a : Nat} (h : ¬a < 20) : memReadByte m a = .error .outOfBounds :=
  if_neg h

theorem memWriteByte_ok {m : Memory} {a : Nat} (h : a < 20) (v : Byte) :
    memWriteByte m a v = .ok (m.poke a v) := if_pos h

theorem memWriteByte_error {m : Memory} {a : Nat} (h : ¬a < 20) (v : Byte) :
    memWriteByte m a v = .error .outOfBounds := if_neg h

theorem checkWordAddr_ok {a : Nat} (h : a + 1 < 20) : checkWordAddr a = .ok () := if_pos h

theorem checkWordAddr_error {a : Nat} (h : ¬a + 1 < 20) : checkWordAddr a = .error .outOfBounds := if_neg h

theorem memReadWord_ok {m : Memory} {a : Nat} (h : a + 1 < 20) :
    memReadWord m a = .ok (wordOfBytes (m.peek a) (m.peek (a + 1))) := by
  unfold memReadWord
  rw [checkWordAddr_ok h, memReadByte_ok (Nat.lt_of_succ_lt h), memReadByte_ok h]
  rfl

theorem memReadWord_error {m : Memory} {a : Nat} (h : ¬a + 1 < 20) :
    memReadWord m a = .error .outOfBounds := by
  unfold memReadWord
  rw [checkWordAddr_error h]
  rfl

/-- The memory after a word write. -/
def Memory.pokeWord (m : Memory) (a : Nat) (v : Word) : Memory := (m.poke a (lowByte v)).poke (a + 1) (highByte v)

theorem memWriteWord_ok {m : Memory} {a : Nat} (h : a + 1 < 20) (v : Word) :
    memWriteWord m a v = .ok (m.pokeWord a v) := by
  unfold memWriteWord
  rw [checkWordAddr_ok h, memWriteByte_ok (Nat.lt_of_succ_lt h)]
  exact memWriteByte_ok h (highByte v)

theorem memWriteWord_error {m : Memory} {a : Nat} (h : ¬a + 1 < 20) (v : Word) :
    memWriteWord m a v = .error .outOfBounds := by
  unfold memWriteWord
  rw [checkWordAddr_error h]
  rfl

theorem wf_pokeWord {m : Memory} (h : m.wf = true) {a : Nat} (ha : a + 1 < 20) (v : Word) :
    (m.pokeWord a v).wf = true :=
  Memory.wf_poke (Memory.wf_poke h (Nat.lt_of_succ_lt ha) _) ha _

theorem peek_pokeWord_other {a b : Nat} (h0 : b ≠ a) (h1 : b ≠ a + 1) (m : Memory) (v : Word) :
    (m.pokeWord a v).peek b = m.peek b :=
  (Memory.peek_poke_other h1 _ _).trans (Memory.peek_poke_other h0 _ _)

theorem peek_pokeWord_high {m : Memory} (h : m.wf = true) {a : Nat} (ha : a + 1 < 20) (v : Word) :
    (m.pokeWord a v).peek (a + 1) = highByte v :=
  Memory.peek_poke_same (Memory.wf_poke h (Nat.lt_of_succ_lt ha) _) _ _

theorem peek_pokeWord_low {m : Memory} (h : m.wf = true) (a : Nat) (v : Word) :
    (m.pokeWord a v).peek a = lowByte v :=
  (Memory.peek_poke_other (Nat.ne_of_lt (Nat.lt_succ_self a)) _ _).trans (Memory.peek_poke_same h _ _)

theorem fetchByte_ok {m : Memory} {a : Nat} (h : a ≤ 13) : fetchByte m a = .ok (m.peek a) := if_pos h

theorem fetchByte_error {m : Memory} {a : Nat} (h : ¬a ≤ 13) : fetchByte m a = .error .outOfBounds := if_neg h

/-! ### Operands -/

@[simp] theorem regSel_address (r : Gpr) : regSel r.address = .ok r := by cases r <;> rfl

theorem regSel_error {b : Byte} (h1 : b ≠ 1) (h2 : b ≠ 2) : regSel b = .error .invalidOperand := by
  unfold regSel; rw [if_neg h1, if_neg h2]

/-- An operand byte names a register or none. -/
theorem address_cases (b : Byte) : (∃ r : Gpr, b = r.address) ∨ b ≠ 1 ∧ b ≠ 2 := by
  by_cases h1 : b = 1
  · exact .inl ⟨.x1, h1⟩
  · by_cases h2 : b = 2
    · exact .inl ⟨.x2, h2⟩
    · exact .inr ⟨h1, h2⟩

theorem address_injective {r q : Gpr} (h : r.address = q.address) : r = q := by
  cases r <;> cases q <;> first | rfl | exact absurd h (by decide)

/-! ### The ALU -/

theorem aluAdd_toNat (va vb : Word) : (aluAdd va vb).toNat = (va.toNat + vb.toNat) % 65536 := by
  simp only [aluAdd, Config.arithModulus, BitVec.toNat_ofNat]; omega

theorem aluSub_toInt (va vb : Word) : ((aluSub va vb).toNat : Int) = ((va.toNat : Int) - (vb.toNat : Int)) % 65536 := by
  simp only [aluSub, Config.arithModulus, BitVec.toNat_ofInt]; omega

/-- The two operations are 16-bit binary addition and subtraction with the carry or borrow out discarded (R102). -/
theorem aluAdd_eq (va vb : Word) : aluAdd va vb = va + vb := by
  apply BitVec.eq_of_toNat_eq
  rw [aluAdd_toNat, BitVec.toNat_add]

theorem aluSub_eq (va vb : Word) : aluSub va vb = va - vb := by
  apply BitVec.eq_of_toNat_eq
  have h := aluSub_toInt va vb
  have := va.isLt; have := vb.isLt
  rw [BitVec.toNat_sub]; omega

end Sys2Proof.Machine
end

