-- ==== Sys2Proof/Laws/State.lean ====
section
/-! SUPPORT. One lemma per field of State and per update of it. -/

namespace Sys2Proof.Machine

section Registers
variable (s : State) (r q : Gpr) (v : Word) (m : Memory) (p : Word) (k : FaultKind) (e : RunState)

@[simp] theorem State.writeReg_mem : (s.writeReg r v).mem = s.mem := by cases r <;> rfl
@[simp] theorem State.writeReg_pc : (s.writeReg r v).pc = s.pc := by cases r <;> rfl
@[simp] theorem State.writeReg_run : (s.writeReg r v).run = s.run := by cases r <;> rfl
@[simp] theorem State.reg_writeReg_same : (s.writeReg r v).reg r = some v := by cases r <;> rfl

theorem State.reg_writeReg_other (h : q ≠ r) : (s.writeReg r v).reg q = s.reg q := by
  cases q <;> cases r <;> first | rfl | exact absurd rfl h

@[simp] theorem State.raise_mem : (s.raise k).mem = s.mem := rfl
@[simp] theorem State.raise_pc : (s.raise k).pc = s.pc := rfl
@[simp] theorem State.raise_x1 : (s.raise k).x1 = s.x1 := rfl
@[simp] theorem State.raise_x2 : (s.raise k).x2 = s.x2 := rfl
@[simp] theorem State.raise_run : (s.raise k).run = .faulted k := rfl
@[simp] theorem State.raise_reg : (s.raise k).reg q = s.reg q := by cases q <;> rfl

@[simp] theorem State.advance_mem : s.advance.mem = s.mem := rfl
@[simp] theorem State.advance_pc : s.advance.pc = s.pc + 3 := rfl
@[simp] theorem State.advance_x1 : s.advance.x1 = s.x1 := rfl
@[simp] theorem State.advance_x2 : s.advance.x2 = s.x2 := rfl
@[simp] theorem State.advance_run : s.advance.run = s.run := rfl
@[simp] theorem State.advance_reg : s.advance.reg q = s.reg q := by cases q <;> rfl

@[simp] theorem State.withMem_reg : ({ s with mem := m } : State).reg q = s.reg q := by cases q <;> rfl
@[simp] theorem State.withPc_reg : ({ s with pc := p } : State).reg q = s.reg q := by cases q <;> rfl
@[simp] theorem State.withRun_reg : ({ s with run := e } : State).reg q = s.reg q := by cases q <;> rfl

end Registers

/-- Both slots agree exactly when every register does. -/
theorem State.reg_eq_iff (s t : State) : (t.x1 = s.x1 ∧ t.x2 = s.x2) ↔ ∀ q : Gpr, t.reg q = s.reg q :=
  ⟨fun h q => by cases q; exacts [h.1, h.2], fun h => ⟨h .x1, h .x2⟩⟩

/-- A valid register holds a value, an uninitialized one none. -/
theorem State.valid_iff (s : State) (r : Gpr) : s.valid r = true ↔ ∃ v, s.reg r = some v :=
  Option.isSome_iff_exists

theorem State.not_valid_iff (s : State) (r : Gpr) : s.valid r = false ↔ s.reg r = none := by
  cases h : s.reg r <;> simp [State.valid, h]

theorem State.readReg_of_some {s : State} {r : Gpr} {v : Word} (h : s.reg r = some v) : s.readReg r = .ok v := by
  simp [State.readReg, h]

theorem State.readReg_of_none {s : State} {r : Gpr} (h : s.reg r = none) :
    s.readReg r = .error .uninitializedRegisterRead := by
  simp [State.readReg, h]

/-- A completed execute stage is followed by the pc advance. -/
theorem State.finish_ok (s t : State) : s.finish (.ok t) = .next t.advance := rfl

/-- A raised kind leaves the state the stage began in, but for the run state. -/
theorem State.finish_error (s : State) (k : FaultKind) : s.finish (.error k) = .next (s.raise k) := rfl

/-- What the end of an execute stage can be. -/
theorem State.finish_cases {s t : State} {e : Except FaultKind State} (h : s.finish e = .next t) :
    (∃ u, e = .ok u ∧ t = u.advance) ∨ ∃ k, e = .error k ∧ t = s.raise k := by
  cases e with
  | ok u => exact .inl ⟨u, rfl, by cases h; rfl⟩
  | error k => exact .inr ⟨k, rfl, by cases h; rfl⟩

end Sys2Proof.Machine
end

