-- ==== Sys2Proof/Laws/Exec.lean ====
section
/-! SUPPORT. What each execute stage does: one lemma per outcome the spec gives it, and one inversion lemma. Later
proofs cite these and do not unfold the stages. -/

namespace Sys2Proof.Machine

section
variable {r a b : Gpr} {b1 b2 : Byte} {v va vb : Word} {s t : State}

/-! ### `load_word` -/

theorem loadWordBody_invalid (h1 : b1 ≠ 1) (h2 : b1 ≠ 2) : loadWordBody b1 b2 s = .error .invalidOperand := by
  unfold loadWordBody; rw [regSel_error h1 h2]; rfl

theorem loadWordBody_bounds (h : ¬b2.toNat + 1 < 20) :
    loadWordBody r.address b2 s = .error .outOfBounds := by
  unfold loadWordBody; rw [regSel_address, effectiveAddr, memReadWord_error h]; rfl

theorem loadWordBody_ok (h : b2.toNat + 1 < 20) :
    loadWordBody r.address b2 s =
      .ok (s.writeReg r (wordOfBytes (s.mem.peek b2.toNat) (s.mem.peek (b2.toNat + 1)))) := by
  unfold loadWordBody; rw [regSel_address, effectiveAddr, memReadWord_ok h]; rfl

/-- What the execute stage of `load_word` can do. -/
theorem loadWordBody_cases (b1 b2 : Byte) (s : State) :
    (b1 ≠ 1 ∧ b1 ≠ 2 ∧ loadWordBody b1 b2 s = .error .invalidOperand) ∨
    (∃ r : Gpr, b1 = r.address ∧ ¬b2.toNat + 1 < 20 ∧ loadWordBody b1 b2 s = .error .outOfBounds) ∨
    ∃ r : Gpr, b1 = r.address ∧ b2.toNat + 1 < 20 ∧ loadWordBody b1 b2 s =
      .ok (s.writeReg r (wordOfBytes (s.mem.peek b2.toNat) (s.mem.peek (b2.toNat + 1)))) := by
  obtain ⟨r, rfl⟩ | ⟨h1, h2⟩ := address_cases b1
  · by_cases h : b2.toNat + 1 < 20
    · exact .inr (.inr ⟨r, rfl, h, loadWordBody_ok h⟩)
    · exact .inr (.inl ⟨r, rfl, h, loadWordBody_bounds h⟩)
  · exact .inl ⟨h1, h2, loadWordBody_invalid h1 h2⟩

/-! ### `store_word` -/

theorem storeWordBody_invalid (h1 : b1 ≠ 1) (h2 : b1 ≠ 2) : storeWordBody b1 b2 s = .error .invalidOperand := by
  unfold storeWordBody; rw [regSel_error h1 h2]; rfl

theorem storeWordBody_bounds (h : ¬b2.toNat + 1 < 20) :
    storeWordBody r.address b2 s = .error .outOfBounds := by
  unfold storeWordBody; rw [regSel_address, effectiveAddr, checkWordAddr_error h]; rfl

theorem storeWordBody_uninitialized (h : b2.toNat + 1 < 20) (hr : s.reg r = none) :
    storeWordBody r.address b2 s = .error .uninitializedRegisterRead := by
  simp only [storeWordBody, regSel_address, effectiveAddr, checkWordAddr_ok h, State.readReg_of_none hr, bind_ok,
    bind_error]

theorem storeWordBody_ok (h : b2.toNat + 1 < 20) (hr : s.reg r = some v) :
    storeWordBody r.address b2 s = .ok { s with mem := s.mem.pokeWord b2.toNat v } := by
  simp only [storeWordBody, regSel_address, effectiveAddr, checkWordAddr_ok h, State.readReg_of_some hr,
    memWriteWord_ok h, bind_ok]
  rfl

/-- What the execute stage of `store_word` can do. -/
theorem storeWordBody_cases (b1 b2 : Byte) (s : State) :
    (b1 ≠ 1 ∧ b1 ≠ 2 ∧ storeWordBody b1 b2 s = .error .invalidOperand) ∨
    (∃ r : Gpr, b1 = r.address ∧ ¬b2.toNat + 1 < 20 ∧ storeWordBody b1 b2 s = .error .outOfBounds) ∨
    (∃ r : Gpr, b1 = r.address ∧ b2.toNat + 1 < 20 ∧ s.reg r = none ∧
      storeWordBody b1 b2 s = .error .uninitializedRegisterRead) ∨
    ∃ (r : Gpr) (v : Word), b1 = r.address ∧ b2.toNat + 1 < 20 ∧ s.reg r = some v ∧
      storeWordBody b1 b2 s = .ok { s with mem := s.mem.pokeWord b2.toNat v } := by
  obtain ⟨r, rfl⟩ | ⟨h1, h2⟩ := address_cases b1
  · by_cases h : b2.toNat + 1 < 20
    · cases hr : s.reg r with
      | none => exact .inr (.inr (.inl ⟨r, rfl, h, hr, storeWordBody_uninitialized h hr⟩))
      | some v => exact .inr (.inr (.inr ⟨r, v, rfl, h, hr, storeWordBody_ok h hr⟩))
    · exact .inr (.inl ⟨r, rfl, h, storeWordBody_bounds h⟩)
  · exact .inl ⟨h1, h2, storeWordBody_invalid h1 h2⟩

/-! ### `add` and `sub` -/

section
variable {op : Word → Word → Word}

theorem arithBody_invalid_a (h1 : b1 ≠ 1) (h2 : b1 ≠ 2) : arithBody op b1 b2 s = .error .invalidOperand := by
  unfold arithBody; rw [regSel_error h1 h2]; rfl

theorem arithBody_invalid_b (h1 : b2 ≠ 1) (h2 : b2 ≠ 2) : arithBody op b1 b2 s = .error .invalidOperand := by
  obtain ⟨r, rfl⟩ | ⟨h, h'⟩ := address_cases b1
  · unfold arithBody; rw [regSel_address, regSel_error h1 h2]; rfl
  · exact arithBody_invalid_a h h'

theorem arithBody_uninitialized (h : s.reg a = none ∨ s.reg b = none) :
    arithBody op a.address b.address s = .error .uninitializedRegisterRead := by
  cases ha : s.reg a with
  | none => simp only [arithBody, regSel_address, State.readReg_of_none ha, bind_ok, bind_error]
  | some va =>
    have hb : s.reg b = none := h.resolve_left (by simp [ha])
    simp only [arithBody, regSel_address, State.readReg_of_some ha, State.readReg_of_none hb, bind_ok, bind_error]

theorem arithBody_ok (ha : s.reg a = some va) (hb : s.reg b = some vb) :
    arithBody op a.address b.address s = .ok (s.writeReg a (op va vb)) := by
  simp only [arithBody, regSel_address, State.readReg_of_some ha, State.readReg_of_some hb, bind_ok]
  rfl

end

/-- What the execute stage of `add` and `sub` can do. -/
theorem arithBody_cases (op : Word → Word → Word) (b1 b2 : Byte) (s : State) :
    ((b1 ≠ 1 ∧ b1 ≠ 2 ∨ b2 ≠ 1 ∧ b2 ≠ 2) ∧ arithBody op b1 b2 s = .error .invalidOperand) ∨
    (∃ a b : Gpr, b1 = a.address ∧ b2 = b.address ∧ (s.reg a = none ∨ s.reg b = none) ∧
      arithBody op b1 b2 s = .error .uninitializedRegisterRead) ∨
    ∃ (a b : Gpr) (va vb : Word), b1 = a.address ∧ b2 = b.address ∧ s.reg a = some va ∧ s.reg b = some vb ∧
      arithBody op b1 b2 s = .ok (s.writeReg a (op va vb)) := by
  obtain ⟨a, rfl⟩ | ⟨h1, h2⟩ := address_cases b1
  · obtain ⟨b, rfl⟩ | ⟨h1, h2⟩ := address_cases b2
    · cases ha : s.reg a with
      | none => exact .inr (.inl ⟨a, b, rfl, rfl, .inl ha, arithBody_uninitialized (.inl ha)⟩)
      | some va =>
        cases hb : s.reg b with
        | none => exact .inr (.inl ⟨a, b, rfl, rfl, .inr hb, arithBody_uninitialized (.inr hb)⟩)
        | some vb => exact .inr (.inr ⟨a, b, va, vb, rfl, rfl, ha, hb, arithBody_ok ha hb⟩)
    · exact .inl ⟨.inr ⟨h1, h2⟩, arithBody_invalid_b h1 h2⟩
  · exact .inl ⟨.inl ⟨h1, h2⟩, arithBody_invalid_a h1 h2⟩

end

/-! ### The dispatch -/

section
variable (b1 b2 : Byte) (s : State)

theorem exec_loadWord : exec (.loadWord b1 b2) s = s.finish (loadWordBody b1 b2 s) := rfl
theorem exec_storeWord : exec (.storeWord b1 b2) s = s.finish (storeWordBody b1 b2 s) := rfl
theorem exec_add : exec (.add b1 b2) s = s.finish (arithBody aluAdd b1 b2 s) := rfl
theorem exec_sub : exec (.sub b1 b2) s = s.finish (arithBody aluSub b1 b2 s) := rfl
theorem exec_halt : exec .halt s = .next { s with run := .halted } := rfl

end

/-- The one thing each completed execute stage changes: a register, or a word of memory. -/
inductive Effect (s : State) : Instr → State → Prop where
  | load (r : Gpr) (b2 : Byte) (h : b2.toNat + 1 < 20) :
      Effect s (.loadWord r.address b2)
        (s.writeReg r (wordOfBytes (s.mem.peek b2.toNat) (s.mem.peek (b2.toNat + 1)))).advance
  | store (r : Gpr) (b2 : Byte) (v : Word) (h : b2.toNat + 1 < 20) (hr : s.reg r = some v) :
      Effect s (.storeWord r.address b2) ({ s with mem := s.mem.pokeWord b2.toNat v } : State).advance
  | add (a b : Gpr) (va vb : Word) (ha : s.reg a = some va) (hb : s.reg b = some vb) :
      Effect s (.add a.address b.address) (s.writeReg a (aluAdd va vb)).advance
  | sub (a b : Gpr) (va vb : Word) (ha : s.reg a = some va) (hb : s.reg b = some vb) :
      Effect s (.sub a.address b.address) (s.writeReg a (aluSub va vb)).advance
  | halt : Effect s .halt { s with run := .halted }

/-- What an instruction can do, said once: it completes with its effect, or enters a fault. -/
theorem exec_effect_or_fault (i : Instr) (s : State) :
    (∃ t, exec i s = .next t ∧ Effect s i t) ∨ ∃ k, exec i s = .next (s.raise k) := by
  cases i with
  | loadWord b1 b2 =>
    rw [exec_loadWord]
    obtain ⟨-, -, h⟩ | ⟨r, -, -, h⟩ | ⟨r, rfl, hb, h⟩ := loadWordBody_cases b1 b2 s <;> rw [h]
    · exact .inr ⟨_, rfl⟩
    · exact .inr ⟨_, rfl⟩
    · exact .inl ⟨_, rfl, .load r b2 hb⟩
  | storeWord b1 b2 =>
    rw [exec_storeWord]
    obtain ⟨-, -, h⟩ | ⟨r, -, -, h⟩ | ⟨r, -, -, -, h⟩ | ⟨r, v, rfl, hb, hr, h⟩ := storeWordBody_cases b1 b2 s <;> rw [h]
    · exact .inr ⟨_, rfl⟩
    · exact .inr ⟨_, rfl⟩
    · exact .inr ⟨_, rfl⟩
    · exact .inl ⟨_, rfl, .store r b2 v hb hr⟩
  | add b1 b2 =>
    rw [exec_add]
    obtain ⟨-, h⟩ | ⟨a, b, -, -, -, h⟩ | ⟨a, b, va, vb, rfl, rfl, ha, hb, h⟩ := arithBody_cases aluAdd b1 b2 s <;> rw [h]
    · exact .inr ⟨_, rfl⟩
    · exact .inr ⟨_, rfl⟩
    · exact .inl ⟨_, rfl, .add a b va vb ha hb⟩
  | sub b1 b2 =>
    rw [exec_sub]
    obtain ⟨-, h⟩ | ⟨a, b, -, -, -, h⟩ | ⟨a, b, va, vb, rfl, rfl, ha, hb, h⟩ := arithBody_cases aluSub b1 b2 s <;> rw [h]
    · exact .inr ⟨_, rfl⟩
    · exact .inr ⟨_, rfl⟩
    · exact .inl ⟨_, rfl, .sub a b va vb ha hb⟩
  | halt => exact .inl ⟨_, rfl, .halt⟩

/-- Inversion: where an instruction answers a next state, it is one of these. -/
theorem exec_cases {i : Instr} {s t : State} (h : exec i s = .next t) : Effect s i t ∨ ∃ k, t = s.raise k := by
  obtain ⟨u, hu, he⟩ | ⟨k, hk⟩ := exec_effect_or_fault i s
  · cases hu.symm.trans h; exact .inl he
  · cases hk.symm.trans h; exact .inr ⟨k, rfl⟩

end Sys2Proof.Machine
end

