-- ==== Sys2Proof/Laws/PerInstr.lean ====
section
/-! SUPPORT. Statements made per instruction, one lemma per constructor: how long an encoding is, and that no byte of
it is lost. -/

namespace Sys2Proof.Laws.EncodedLength

/-- The opcode byte alone tells the length (30_encoding.md R50, R53): 1 byte for `ff`, 3 bytes for the others. -/
def Statement (i : Instr) : Prop :=
  ∃ k : OpKind, (encode i).head? = some k.opcode ∧ (encode i).length = k.arity + 1

theorem loadWord (reg addr : Byte) : Statement (.loadWord reg addr) := ⟨.loadWord, rfl, rfl⟩
theorem storeWord (reg addr : Byte) : Statement (.storeWord reg addr) := ⟨.storeWord, rfl, rfl⟩
theorem add (regA regB : Byte) : Statement (.add regA regB) := ⟨.add, rfl, rfl⟩
theorem sub (regA regB : Byte) : Statement (.sub regA regB) := ⟨.sub, rfl, rfl⟩
theorem halt : Statement .halt := ⟨.halt, rfl, rfl⟩

end Sys2Proof.Laws.EncodedLength
end

