-- ==== Sys2Proof/Laws/Step.lean ====
section
/-! SUPPORT. What the fetch unit and a step can do. -/

namespace Sys2Proof.Machine

section
variable {m : Memory} {pc : Nat} {k : OpKind}

theorem fetchInstr_pc_bound (h : ¬pc ≤ 13) : fetchInstr m pc = .error .outOfBounds := by
  unfold fetchInstr; rw [fetchByte_error h]; rfl

theorem fetchInstr_unknown (h : pc ≤ 13) {e : DecodeError} (hd : decodeOpcode (m.peek pc) = .error e) :
    fetchInstr m pc = .error .unknownOpcode := by
  unfold fetchInstr; rw [fetchByte_ok h]
  change (match decodeOpcode (m.peek pc) with | .error _ => _ | .ok .halt => _ | .ok k => _) = _
  rw [hd]

theorem fetchInstr_halt (h : pc ≤ 13) (hd : m.peek pc = 0xff) : fetchInstr m pc = .ok .halt := by
  unfold fetchInstr; rw [fetchByte_ok h, hd]; rfl

theorem fetchInstr_operand_bound (h : pc ≤ 13) (hk : k ≠ .halt) (hd : m.peek pc = k.opcode)
    (h2 : ¬pc + 2 ≤ 13) : fetchInstr m pc = .error .outOfBounds := by
  unfold fetchInstr; rw [fetchByte_ok h, hd]
  by_cases h1 : pc + 1 ≤ 13
  · rw [fetchByte_ok h1, fetchByte_error h2]; cases k <;> first | rfl | exact absurd rfl hk
  · rw [fetchByte_error h1]; cases k <;> first | rfl | exact absurd rfl hk

theorem fetchInstr_triplet (hd : m.peek pc = k.opcode) (h2 : pc + 2 ≤ 13) :
    fetchInstr m pc = .ok (k.triplet (m.peek (pc + 1)) (m.peek (pc + 2))) := by
  unfold fetchInstr
  rw [fetchByte_ok (show pc ≤ 13 by omega), fetchByte_ok (show pc + 1 ≤ 13 by omega), fetchByte_ok h2, hd]
  cases k <;> rfl

/-- What the fetch unit with the decoder can do. -/
theorem fetchInstr_cases (m : Memory) (pc : Nat) :
    (13 < pc ∧ fetchInstr m pc = .error .outOfBounds) ∨
    (pc ≤ 13 ∧ decodeOpcode (m.peek pc) = .error .unknownOpcode ∧ fetchInstr m pc = .error .unknownOpcode) ∨
    (pc ≤ 13 ∧ m.peek pc = 0xff ∧ fetchInstr m pc = .ok .halt) ∨
    ∃ k : OpKind, k ≠ .halt ∧ m.peek pc = k.opcode ∧
      ((pc ≤ 13 ∧ 13 < pc + 2 ∧ fetchInstr m pc = .error .outOfBounds) ∨
        (pc + 2 ≤ 13 ∧ fetchInstr m pc = .ok (k.triplet (m.peek (pc + 1)) (m.peek (pc + 2))))) := by
  by_cases h : pc ≤ 13
  · cases hd : decodeOpcode (m.peek pc) with
    | error e =>
      obtain ⟨rfl, -⟩ := decodeOpcode_error hd
      exact .inr (.inl ⟨h, rfl, fetchInstr_unknown h hd⟩)
    | ok k =>
      have ho := decodeOpcode_ok hd
      by_cases hk : k = .halt
      · subst hk; exact .inr (.inr (.inl ⟨h, ho, fetchInstr_halt h ho⟩))
      · refine .inr (.inr (.inr ⟨k, hk, ho, ?_⟩))
        by_cases h2 : pc + 2 ≤ 13
        · exact .inr ⟨h2, fetchInstr_triplet ho h2⟩
        · exact .inl ⟨h, by omega, fetchInstr_operand_bound h hk ho h2⟩
  · exact .inl ⟨by omega, fetchInstr_pc_bound h⟩

end

theorem step_running {s : State} (h : s.run = .running) :
    step s = match fetchInstr s.mem s.pc.toNat with
      | .error k => .next (s.raise k)
      | .ok i => exec i s := by
  cases s; cases h; rfl

theorem step_of_fetch_ok {s : State} {i : Instr} (h : s.run = .running) (hf : fetchInstr s.mem s.pc.toNat = .ok i) :
    step s = exec i s := by
  rw [step_running h, hf]

theorem step_of_fetch_error {s : State} {k : FaultKind} (h : s.run = .running)
    (hf : fetchInstr s.mem s.pc.toNat = .error k) : step s = .next (s.raise k) := by
  rw [step_running h, hf]

/-- Inversion: a step that answers a next state starts in `Running` and is a fault of the fetch unit or the decoder,
or an instruction's effect, or an instruction's fault. -/
theorem step_cases {s t : State} (h : step s = .next t) :
    s.run = .running ∧
      ((∃ k, fetchInstr s.mem s.pc.toNat = .error k ∧ t = s.raise k) ∨
        ∃ i, fetchInstr s.mem s.pc.toNat = .ok i ∧ exec i s = .next t ∧ (Effect s i t ∨ ∃ k, t = s.raise k)) := by
  have hrun : s.run = .running := by
    cases hr : s.run with
    | running => rfl
    | halted => unfold step at h; rw [hr] at h; cases h
    | faulted k => unfold step at h; rw [hr] at h; cases h
  refine ⟨hrun, ?_⟩
  cases hf : fetchInstr s.mem s.pc.toNat with
  | error k => exact .inl ⟨k, rfl, by rw [step_of_fetch_error hrun hf] at h; cases h; rfl⟩
  | ok i =>
    rw [step_of_fetch_ok hrun hf] at h
    exact .inr ⟨i, rfl, h, exec_cases h⟩

/-- An instruction with operands is fetched only where its three bytes lie in the instruction region. -/
theorem pc_le_of_fetch_ok {m : Memory} {pc : Nat} {i : Instr} (h : fetchInstr m pc = .ok i) (hi : i ≠ .halt) :
    pc ≤ 11 := by
  obtain ⟨-, hf⟩ | ⟨-, -, hf⟩ | ⟨-, -, hf⟩ | ⟨k, -, -, ⟨-, -, hf⟩ | ⟨h2, hf⟩⟩ := fetchInstr_cases m pc <;>
    rw [hf] at h <;> cases h
  · exact absurd rfl hi
  · omega

end Sys2Proof.Machine
end

