-- ==== Sys2Proof/Tests/Slice0.lean ====
section
/-! SUPPORT. The model's own tests: the smoke test of WellFormed, decodings of words written out from the spec's table,
single steps whose expected results are the vectors of 95_test_vectors.md, and for every statement with hypotheses a
witness that meets them, clause by clause at the boundary values. -/

namespace Sys2Proof.Tests

open Sys2Proof Sys2Proof.Machine

/-- A running state whose memory begins with the given bytes. -/
def st (bytes : List Byte) (pc : Word) (x1 x2 : Option Word) : State :=
  { mem := placeBytes [] 0 bytes, pc := pc, x1 := x1, x2 := x2, run := .running }

/-- The next state of an answer, if it is one. -/
def after : Result → Option State
  | .next t => some t
  | _ => none

/-! ### WellFormed: each check refuses an ill-formed term -/

theorem test_wellFormed_load_reg : (Instr.loadWord 0 16).wellFormed = false := by decide
theorem test_wellFormed_load_addr : (Instr.loadWord 1 19).wellFormed = false := by decide
theorem test_wellFormed_store_reg : (Instr.storeWord 3 14).wellFormed = false := by decide
theorem test_wellFormed_store_addr : (Instr.storeWord 2 255).wellFormed = false := by decide
theorem test_wellFormed_add_regA : (Instr.add 0 1).wellFormed = false := by decide
theorem test_wellFormed_add_regB : (Instr.add 1 5).wellFormed = false := by decide
theorem test_wellFormed_sub_regA : (Instr.sub 255 1).wellFormed = false := by decide
theorem test_wellFormed_sub_regB : (Instr.sub 2 0).wellFormed = false := by decide
theorem test_wellFormed_accepts : (Instr.loadWord 1 18).wellFormed = true ∧ (Instr.storeWord 2 0).wellFormed = true ∧
    (Instr.add 1 1).wellFormed = true ∧ (Instr.sub 2 1).wellFormed = true ∧ Instr.halt.wellFormed = true := by decide

/-! ### Decode: words written out from R51, R52, R54 (listings of 95_test_vectors.md S1, S2) -/

/-- `01 01 10` of S1. -/
theorem test_decode_load_word : decode [0b00000001, 0b00000001, 0b00010000] = .ok (.loadWord 1 0x10, []) := by decide
/-- `02 01 0e` of S1, with bytes after it. -/
theorem test_decode_store_word : decode [0b00000010, 0b00000001, 0b00001110, 0xff] = .ok (.storeWord 1 0x0e, [0xff]) := by
  decide
/-- `03 01 02` of S1. -/
theorem test_decode_add : decode [0b00000011, 0b00000001, 0b00000010] = .ok (.add 1 2, []) := by decide
/-- `04 01 02` of S2. -/
theorem test_decode_sub : decode [0b00000100, 0b00000001, 0b00000010] = .ok (.sub 1 2, []) := by decide
/-- `ff` of S1; the bytes after it are no part of it (R52). -/
theorem test_decode_halt : decode [0b11111111, 0x00] = .ok (.halt, [0x00]) := by decide
/-- The near misses of 95_test_vectors.md section 2.1. -/
theorem test_decode_near_misses : ∀ b ∈ ([0x00, 0x05, 0x7f, 0x80, 0x81, 0xfe, 0x0f, 0xf0] : List Byte),
    decode [b, 1, 2] = .error .unknownOpcode := by decide
/-- The table's numbering: the first byte is the least significant one. -/
theorem test_decodeTableWord : decodeTableWord 24 0x020103 = some (.add 1 2) ∧ decodeTableWord 8 0xff = some .halt ∧
    decodeTableWord 8 0x10_01_01 = some (.loadWord 0 0) ∧ decodeTableWord 24 0x05 = none := by decide

/-! ### Single steps, expected results from 95_test_vectors.md -/

/-- V-L1: address 18 is the last legal one. -/
theorem test_load_last_word :
    (after (step (st [1, 1, 0x12, 2, 1, 0x0e, 0xff, 0, 0, 0, 0, 0, 0, 0, 0, 0, 0, 0, 0xcd, 0xab] 0 none none))).map
        (fun t => (t.x1, t.pc, t.run)) =
      some (some 0xabcd, 3, .running) := by decide
/-- V-L6: address 255 does not wrap to 0. -/
theorem test_load_no_wrap :
    (after (step (st [1, 1, 0xff] 0 none none))).map (·.run) =
      some (.faulted .outOfBounds) := by decide
/-- V-S7, second step: a store over its own opcode and operand byte goes on to pc 6. -/
theorem test_store_over_itself :
    (after (step (st [1, 1, 0x10, 2, 1, 3, 0xff] 3 (some 0x0707) none))).map (fun t => (t.mem.image.take 7, t.pc)) =
      some ([1, 1, 0x10, 7, 7, 3, 0xff], 6) := by decide
/-- V-S6: the address check comes before the register read. -/
theorem test_store_check_order :
    (after (step (st [2, 1, 0x13, 0xff] 0 none none))).map (·.run) =
      some (.faulted .outOfBounds) := by decide
/-- V-A3: 0xffff + 1 wraps to 0. -/
theorem test_add_wraps :
    (after (exec (.add 1 2) (st [] 6 (some 0xffff) (some 1)))).map (fun t => (t.x1, t.x2, t.pc)) =
      some (some 0, some 1, 9) := by decide
/-- V-A9: both register addresses are checked before any register is read. -/
theorem test_add_check_order :
    (after (step (st [3, 1, 5, 0xff] 0 none none))).map (·.run) =
      some (.faulted .invalidOperand) := by decide
/-- V-B11: `sub r2, r1` is 30 - 100 and writes x[2]. -/
theorem test_sub_operand_order :
    (after (exec (.sub 2 1) (st [] 6 (some 100) (some 30)))).map (fun t => (t.x1, t.x2)) =
      some (some 100, some 65466) := by decide
/-- V-B9: `sub r1, r1` on an uninitialized register faults. -/
theorem test_sub_uninitialized :
    (after (step (st [4, 1, 1, 0xff] 0 none none))).map (·.run) =
      some (.faulted .uninitializedRegisterRead) := by decide
/-- V-F8: `halt` at 13 halts, and the pc stays. -/
theorem test_halt_at_thirteen :
    (after (step (st [0, 0, 0, 0, 0, 0, 0, 0, 0, 0, 0, 0, 0, 0xff] 13 none none))).map (fun t => (t.run, t.pc)) =
      some (.halted, 13) := by decide
/-- V-F4: an unknown opcode at 12 is reported before any operand address. -/
theorem test_unknown_at_twelve :
    (after (step (st [0, 0, 0, 0, 0, 0, 0, 0, 0, 0, 0, 0, 7] 12 none none))).map (·.run) =
      some (.faulted .unknownOpcode) := by decide
/-- V-H1, V-H2: images of 19 and 21 bytes. -/
theorem test_image_lengths : loadImage (List.replicate 19 0) = .error .invalidMemorySize ∧
    loadImage (List.replicate 21 0) = .error .invalidMemorySize := by decide

/-! ### Witnesses: every statement's hypotheses can be met, each clause at its boundary -/

/-- The image of S1. -/
def imageS1 : List Byte := [1, 1, 0x10, 1, 2, 0x12, 3, 1, 2, 2, 1, 0x0e, 0xff, 0, 0, 0, 0xa1, 0x14, 0x0c, 0]

theorem witness_LoadGivesTheResetValues : imageS1.length = 20 ∧ (19 : Nat) < imageS1.length := by decide

theorem witness_WrongLengthImageIsRejected :
    (List.replicate 19 (0 : Byte)).length ≠ 20 ∧ (List.replicate 21 (0 : Byte)).length ≠ 20 := by decide

theorem witness_OpcodeTableIsClosed : ∀ b ∈ ([0x00, 0x05, 0xfe] : List Byte),
    b ≠ 0x01 ∧ b ≠ 0x02 ∧ b ≠ 0x03 ∧ b ≠ 0x04 ∧ b ≠ 0xff := by decide

theorem witness_OperandBytesSelect : (∀ b ∈ ([0, 3, 255] : List Byte), b ≠ 1 ∧ b ≠ 2) ∧
    (18 : Byte).toNat ≤ 18 ∧ 19 ≤ (19 : Byte).toNat := by decide

theorem witness_IllFormedInstructionsFault : State.reset.run = .running ∧ (Instr.storeWord 2 18).wellFormed = true ∧
    (after (exec (.storeWord 2 18) State.reset)).map (·.run) = some (.faulted .uninitializedRegisterRead) ∧
    (Instr.storeWord 2 19).wellFormed = false ∧ (Instr.add 1 0).wellFormed = false := by decide

theorem witness_StepRunsTheDecodedInstruction :
    (st [0, 0, 0, 0, 0, 0, 0, 0, 0, 0, 0, 3, 1, 1] 11 (some 4) none).run = .running ∧
    decode (fetchableBytes (st [0, 0, 0, 0, 0, 0, 0, 0, 0, 0, 0, 3, 1, 1] 11 (some 4) none).mem 11) =
      .ok (.add 1 1, []) ∧
    decode (fetchableBytes (st [0, 0, 0, 0, 0, 0, 0, 0, 0, 0, 0, 0, 0, 0xff] 13 none none).mem 13) = .ok (.halt, []) := by
  decide

theorem witness_StepExistsExactlyInRunning : after (step State.reset) = some (State.reset.raise .unknownOpcode) ∧
    after (step { State.reset with run := .halted }) = none ∧
    after (step { State.reset with run := .faulted .outOfBounds }) = none := by decide

theorem witness_StepRefinesThePseudocode : State.reset.mem.wf = true ∧ (st imageS1 9 (some 5293) none).mem.wf = true ∧
    (after (step State.reset)).isSome = true ∧ (after (step (st imageS1 9 (some 5293) none))).isSome = true := by decide

/-- One state for each branch of R127's order. -/
theorem witness_FirstFailingCheckIsReported :
    ((after (step (st [] 14 none none))).map (·.run) = some (.faulted .outOfBounds)) ∧
    ((after (step (st [5] 0 none none))).map (·.run) = some (.faulted .unknownOpcode)) ∧
    ((after (step (st [0xff] 0 none none))).map (·.run) = some .halted) ∧
    ((after (step (st [0, 0, 0, 0, 0, 0, 0, 0, 0, 0, 0, 0, 2] 12 none none))).map (·.run) =
      some (.faulted .outOfBounds)) ∧
    ((after (step (st [2, 3, 19] 0 none none))).map (·.run) = some (.faulted .invalidOperand)) ∧
    ((after (step (st [2, 1, 19] 0 none none))).map (·.run) = some (.faulted .outOfBounds)) ∧
    ((after (step (st [2, 1, 18] 0 none none))).map (·.run) = some (.faulted .uninitializedRegisterRead)) ∧
    ((after (step (st [3, 1, 2] 0 (some 0) none))).map (·.run) = some (.faulted .uninitializedRegisterRead)) ∧
    ((after (step (st [3, 1, 2] 0 (some 0) (some 0)))).map (·.run) = some .running) := by decide

theorem witness_FaultEntryChangesOnlyTheRunState : ∃ (s t : State) (k : FaultKind),
    step s = .next t ∧ t.run = .faulted k :=
  ⟨st [2, 1, 19] 0 (some 7) none, _, _, rfl, rfl⟩

/-- The three ways a step can leave the run state; the pc before is the largest of each. -/
theorem witness_PcMovesByThreeOrNotAtAll :
    (after (step (st [0, 0, 0, 0, 0, 0, 0, 0, 0, 0, 0, 3, 1, 1] 11 (some 4) none))).map (·.run) = some .running ∧
    (after (step (st [0, 0, 0, 0, 0, 0, 0, 0, 0, 0, 0, 0, 0, 0xff] 13 none none))).map (·.run) = some .halted ∧
    (after (step (st [] 14 none none))).map (·.run) = some (.faulted .outOfBounds) ∧
    loadImage (List.replicate 20 0) = .ok State.reset := by decide

theorem witness_PcStaysInRange :
    (after (step (st [] 14 none none))).isSome = true ∧ 13 < (14 : Word).toNat ∧
    (after (step (st [0, 0, 0, 0, 0, 0, 0, 0, 0, 0, 0, 3, 1, 1] 11 (some 4) none))).map (·.run) = some .running ∧
    (after (step (st [0, 0, 0, 0, 0, 0, 0, 0, 0, 0, 0, 0, 0, 3] 13 none none))).isSome = true ∧
    (st [0, 0, 0, 0, 0, 0, 0, 0, 0, 0, 0, 0, 0, 3] 13 none none).mem.peek 13 ≠ 0xff ∧
    (after (step (st [0, 0, 0, 0, 0, 0, 0, 0, 0, 0, 0, 0, 3] 12 none none))).isSome = true ∧
    stepTimes 1 State.reset = some (State.reset.raise .unknownOpcode) := by decide

/-- A step that changes a byte of memory, and one for each instruction that changes a register. -/
theorem witness_StepChangesOnlyWhatTheInstructionNames :
    (after (step (st [2, 1, 18] 0 (some 0x0102) none))).map (fun t => (t.mem.peek 18, t.mem.peek 19)) = some (2, 1) ∧
    (after (step (st [1, 1, 0] 0 none none))).map (·.x1) = some (some 0x0101) ∧
    (after (step (st [3, 1, 2] 0 (some 1) (some 1)))).map (·.x1) = some (some 2) ∧
    (after (step (st [4, 1, 2] 0 (some 1) (some 1)))).map (·.x1) = some (some 0) := by decide

theorem witness_OnlyLoadWordSetsAValidBit :
    (st [1, 1, 0] 0 none (some 5)).valid .x2 = true ∧ (st [1, 1, 0] 0 none (some 5)).valid .x1 = false ∧
    (after (step (st [1, 1, 0] 0 none (some 5)))).map (·.valid .x1) = some true := by decide

theorem witness_FaultsFollowTheMatrix :
    fetchInstr [] 0 = .error .unknownOpcode ∧ fetchInstr [] 14 = .error .outOfBounds ∧
    (after (step (st [2, 1, 18] 0 none none))).map (·.run) = some (.faulted .uninitializedRegisterRead) ∧
    canRaise (.storeWord 1 18) .uninitializedRegisterRead = true ∧ canRaise (.sub 0 0) .invalidOperand = true := by decide

theorem witness_ByteAccessIsBoundsChecked : Memory.wf [(0, 7), (19, 1)] = true ∧ (19 : Nat) ≤ 19 ∧ (19 : Nat) < 20 := by
  decide

theorem witness_WordReadIsLittleEndian : (19 : Nat) < 19 + 1 ∧ (18 : Nat) + 1 ≤ 19 := by decide

theorem witness_WordWriteIsLittleEndian :
    Memory.wf [(18, 255), (19, 1)] = true ∧ (19 : Nat) < 19 + 1 ∧ (18 : Nat) + 1 ≤ 19 := by decide

theorem witness_FetchStopsAtThirteen :
    (st [] 14 none none).run = .running ∧ 14 ≤ (14 : Word).toNat ∧ (13 : Word).toNat = 13 ∧ (12 : Word).toNat = 12 ∧
    (st [0, 0, 0, 0, 0, 0, 0, 0, 0, 0, 0, 0, 1, 4] 12 none none).mem.peek 12 ∈ ([1, 2, 3, 4] : List Byte) ∧
    (st [0, 0, 0, 0, 0, 0, 0, 0, 0, 0, 0, 0, 1, 4] 13 none none).mem.peek 13 ∈ ([1, 2, 3, 4] : List Byte) ∧
    (st [0, 0, 0, 0, 0, 0, 0, 0, 0, 0, 0, 0, 0xff] 12 none none).mem.peek 12 = 0xff ∧
    (st [0, 0, 0, 0, 0, 0, 0, 0, 0, 0, 0, 0, 0, 0xff] 13 none none).mem.peek 13 = 0xff := by decide

/-- Two memories that differ at byte 13 and above only. -/
theorem witness_FetchIgnoresByteThirteenAndAbove :
    (12 : Word) ∈ reachablePcs ∧ (∀ a ∈ List.range 13,
      (placeBytes [] 0 (List.replicate 13 1)).peek a = (placeBytes [] 0 (List.replicate 20 1)).peek a) ∧
    (placeBytes [] 0 (List.replicate 13 1)).peek 13 ≠ (placeBytes [] 0 (List.replicate 20 1)).peek 13 := by decide

/-- Operands on either side of each bound; a `load_word` byte at 12, where its operands do not fit. -/
theorem witness_LoadWordFollowsItsRule :
    ((0 : Byte) ≠ 1 ∧ (0 : Byte) ≠ 2) ∧ ((3 : Byte) ≠ 1 ∧ (3 : Byte) ≠ 2) ∧
    ((2 : Byte) = Gpr.x2.address ∧ 19 ≤ (19 : Byte).toNat) ∧ ((1 : Byte) = Gpr.x1.address ∧ (18 : Byte).toNat ≤ 18) ∧
    ((st [0, 0, 0, 0, 0, 0, 0, 0, 0, 0, 0, 0, 1] 12 none none).run = .running ∧
      (st [0, 0, 0, 0, 0, 0, 0, 0, 0, 0, 0, 0, 1] 12 none none).mem.peek 12 = 0x01 ∧ 13 < (12 : Word).toNat + 2) := by
  decide

theorem witness_StoreWordFollowsItsRule :
    (st [7] 0 (some 5293) none).mem.wf = true ∧ ((0 : Byte) ≠ 1 ∧ (0 : Byte) ≠ 2) ∧
    ((2 : Byte) = Gpr.x2.address ∧ 19 ≤ (19 : Byte).toNat) ∧
    ((2 : Byte) = Gpr.x2.address ∧ (18 : Byte).toNat ≤ 18 ∧ (st [7] 0 (some 5293) none).valid .x2 = false) ∧
    ((1 : Byte) = Gpr.x1.address ∧ (st [7] 0 (some 5293) none).reg .x1 = some 5293) ∧
    (st [0, 0, 0, 0, 0, 0, 0, 0, 0, 0, 0, 0, 2] 12 none none).mem.peek 12 = 0x02 := by decide

theorem witness_LoadStoreRoundTrip : (st imageS1 0 none (some 7)).mem.wf = true ∧ (18 : Byte).toNat ≤ 18 ∧
    (17 : Byte).toNat ≤ 18 ∧ (st imageS1 0 none (some 7)).valid .x2 = true := by decide

/-- A store over its own bytes at the last pc where a store fits. -/
theorem witness_StoreIsSeenByLaterFetches :
    (st [0, 0, 0, 0, 0, 0, 0, 0, 0, 0, 0, 2, 1, 11] 11 (some 0x00ff) none).mem.wf = true ∧ (11 : Word).toNat ≤ 11 ∧
    (st [0, 0, 0, 0, 0, 0, 0, 0, 0, 0, 0, 2, 1, 11] 11 (some 0x00ff) none).mem.peek 11 = 0x02 ∧
    (st [0, 0, 0, 0, 0, 0, 0, 0, 0, 0, 0, 2, 1, 11] 11 (some 0x00ff) none).mem.peek 12 = Gpr.x1.address ∧
    (st [0, 0, 0, 0, 0, 0, 0, 0, 0, 0, 0, 2, 1, 11] 11 (some 0x00ff) none).mem.peek 13 = 11 ∧
    (11 : Byte).toNat ≤ 18 := by decide

theorem witness_StoreWordFrame : ∃ t, exec (.storeWord 1 18) (st [] 0 (some 5293) none) = .next t ∧ t.run = .running :=
  ⟨_, rfl, rfl⟩

theorem witness_LoadAndArithmeticFrame :
    (after (exec (.loadWord 1 18) (st [] 0 none none))).map (·.run) = some .running ∧
    (after (exec (.add 1 2) (st [] 0 (some 1) (some 2)))).map (·.run) = some .running ∧
    (after (exec (.sub 2 1) (st [] 0 (some 1) (some 2)))).map (·.run) = some .running ∧
    Gpr.x2.address ≠ (1 : Byte) ∧ Gpr.x1.address ≠ (2 : Byte) := by decide

theorem witness_AddFollowsItsRule :
    (0 : Byte) ∉ ([1, 2] : List Byte) ∧ (3 : Byte) ∉ ([1, 2] : List Byte) ∧ (st [] 0 none (some 1)).valid .x1 = false ∧
    (st [] 0 (some 1) none).valid .x2 = false ∧ (1 : Byte) = Gpr.x1.address ∧ (2 : Byte) = Gpr.x2.address ∧
    (st [] 0 (some 0xffff) (some 1)).reg .x1 = some 0xffff ∧ (st [] 0 (some 0xffff) (some 1)).reg .x2 = some 1 ∧
    (st [0, 0, 0, 0, 0, 0, 0, 0, 0, 0, 0, 0, 3] 12 none none).mem.peek 12 = 0x03 := by decide

theorem witness_SubFollowsItsRule :
    (0 : Byte) ∉ ([1, 2] : List Byte) ∧ (st [] 0 none (some 1)).valid .x1 = false ∧ (1 : Byte) = Gpr.x1.address ∧
    (2 : Byte) = Gpr.x2.address ∧ (st [] 0 (some 0) (some 0xffff)).reg .x1 = some 0 ∧
    (st [] 0 (some 0) (some 0xffff)).reg .x2 = some 0xffff ∧
    (st [0, 0, 0, 0, 0, 0, 0, 0, 0, 0, 0, 0, 4] 12 none none).mem.peek 12 = 0x04 := by decide

theorem witness_AddAndSubWriteOnlyTheirDestination :
    Instr.sub 2 1 = .sub Gpr.x2.address Gpr.x1.address ∧ (st [] 0 (some 100) (some 30)).valid .x2 = true ∧
    (st [] 0 (some 100) (some 30)).valid .x1 = true := by decide

theorem witness_SameRegisterDoublesOrClears :
    (st [] 0 (some 0x8001) none).reg .x1 = some 0x8001 ∧ (st [] 0 (some 0x8001) none).valid .x2 = false := by decide

theorem witness_SubUndoesAdd : Gpr.x1 ≠ Gpr.x2 ∧ (st [] 0 (some 0xffff) (some 1)).valid .x1 = true ∧
    (st [] 0 (some 0xffff) (some 1)).valid .x2 = true := by decide

theorem witness_NoInstructionReadsThePc : ∃ t, exec (.add 1 2) (st [] 0 (some 1) (some 2)) = .next t ∧ t.run = .running :=
  ⟨_, rfl, rfl⟩

theorem witness_HaltFollowsItsRule :
    (st (List.replicate 20 0xff) 13 none none).run = .running ∧
    (st (List.replicate 20 0xff) 13 none none).mem.peek 13 = 0xff ∧ (13 : Word).toNat ≤ 13 ∧
    (st (List.replicate 20 0xff) 14 none none).mem.peek 14 = 0xff ∧ 13 < (14 : Word).toNat ∧
    (after (exec .halt State.reset)).isSome = true ∧
    (st [0, 0, 0, 0, 0, 0, 0, 0, 0, 0, 0, 4, 0xff, 1] 11 none none).mem.peek 11 ∈ ([1, 2, 3, 4] : List Byte) ∧
    (st [0, 0, 0, 0, 0, 0, 0, 0, 0, 0, 0, 4, 0xff, 1] 11 none none).mem.peek 12 = 0xff ∧
    (st [2, 2, 0xff] 0 none none).mem.peek 0 ∈ ([1, 2] : List Byte) ∧
    (st [2, 2, 0xff] 0 none none).mem.peek 1 ∈ ([1, 2] : List Byte) ∧ (st [2, 2, 0xff] 0 none none).mem.peek 2 = 0xff ∧
    (st [0, 0, 0, 0, 0, 0, 0, 0, 0, 0, 0, 3, 1, 0xff] 11 none none).mem.peek 11 ∈ ([3, 4] : List Byte) ∧
    (st [0, 0, 0, 0, 0, 0, 0, 0, 0, 0, 0, 3, 1, 0xff] 11 none none).mem.peek 13 = 0xff := by
  decide

theorem witness_TheInvariantHoldsAtReset : loadImage (List.replicate 20 0) = .ok State.reset := by decide

theorem witness_StepKeepsTheInvariant : (st imageS1 9 (some 5293) none).mem.wf = true ∧ (9 : Word) ∈ reachablePcs ∧
    (after (step (st imageS1 9 (some 5293) none))).map (·.run) = some .running := by decide

theorem witness_EveryRunEndsWithinFiveSteps : imageS1.length = 20 := by decide

theorem witness_RunResultIsTheEndOfTheRun : loadImage (0xff :: List.replicate 19 0xaa) = .ok
    { State.reset with mem := placeBytes [] 0 (0xff :: List.replicate 19 0xaa) } := by decide

theorem witness_MaxStepsOfFiveOrMoreChangesNothing : (5 : Nat) ≤ 5 := by decide

/-- V-F1: a run that halts at once. -/
theorem witness_FinalMemoryIsTheImageButForStores :
    run (0xff :: List.replicate 19 0xaa) = .success (0xff :: List.replicate 19 0xaa) := by decide

theorem witness_PlacedWordRunsNext : State.reset.mem.wf = true ∧ decodeTableWord 24 0x120201 = some (.loadWord 2 0x12) ∧
    decodeTableWord 8 0xff = some .halt := by decide

end Sys2Proof.Tests
end

section
/-! Reset with an image (10_state.md R22): the loader's accepting case, the loaded bytes as an instance of the law of
`placeBytes`, and the memory as the host reads it back. -/

namespace Sys2Proof.Machine

@[simp] theorem Memory.length_image (m : Memory) : m.image.length = 20 := by simp [Memory.image]

@[simp] theorem Memory.getElem_image (m : Memory) {i : Nat} (h : i < m.image.length) : m.image[i] = m.peek i := by
  simp [Memory.image]

/-- Twenty bytes are the memory's image once each of them is the byte at its own address. -/
theorem Memory.image_eq_of_peek {m : Memory} {image : List Byte} (hlen : image.length = 20)
    (hpeek : ∀ i (h : i < image.length), m.peek i = image[i]) : m.image = image :=
  List.ext_getElem (m.length_image.trans hlen.symm) fun i hm hi => (m.getElem_image hm).trans (hpeek i hi)

theorem loadImage_of_length {image : List Byte} (hlen : image.length = 20) :
    loadImage image = .ok { State.reset with mem := placeBytes [] 0 image } :=
  if_pos hlen

/-- R154: the loaded memory holds byte `i` of the image at address `i`. -/
theorem peek_loaded {image : List Byte} (hlen : image.length = 20) (i : Nat) (hi : i < image.length) :
    (placeBytes [] 0 image).peek i = image[i] := by
  have hplaced := peek_placeBytes image (m := []) rfl (a := 0) hi (by omega)
  rwa [Nat.zero_add] at hplaced

/-- Settles O2: the loader's accepting case gives the reset state but for `mem`; the bytes placed from address 0 on
fill the memory, and reading all twenty back gives the image. -/
theorem loadGivesTheResetValues : Obligations.LoadGivesTheResetValues := by
  intro image hlen
  have hbytes := peek_loaded hlen
  exact ⟨_, loadImage_of_length hlen, rfl, rfl, rfl, rfl, hbytes, Memory.image_eq_of_peek hlen hbytes⟩

end Sys2Proof.Machine
end

section
/-! The access primitives of memory (20_memory.md sections 1 and 3): the byte read and write (R33) and the word read
(R38), each split at its bounds check. -/

namespace Sys2Proof.Machine

/-- Settles O19: inside the memory the read is `peek` and the write is `poke`, whose read-after-write, frame and
canonical-form laws are the clauses; outside it the bounds check answers. -/
theorem byteAccessIsBoundsChecked : Obligations.ByteAccessIsBoundsChecked := by
  intro m a v hwf
  refine ⟨fun hin => ?_, fun hout => ?_⟩
  · have ha : a < 20 := Nat.lt_succ_of_le hin
    exact ⟨memReadByte_ok ha, m.poke a v, memWriteByte_ok ha v, Memory.wf_poke hwf ha v,
      Memory.peek_poke_same hwf a v, fun b hne => Memory.peek_poke_other hne m v⟩
  · have ha : ¬a < 20 := Nat.not_lt_of_ge hout
    exact ⟨memReadByte_error ha, memWriteByte_error ha v⟩

/-- Settles O20: the one check on `addr + 1`, a natural number, decides the access; a word that fits has the value
of its two bytes. -/
theorem wordReadIsLittleEndian : Obligations.WordReadIsLittleEndian := by
  intro m a
  refine ⟨fun hout => memReadWord_error (Nat.not_lt_of_ge hout), fun hin => ?_⟩
  exact ⟨_, memReadWord_ok (Nat.lt_succ_of_le hin), wordOfBytes_toNat _ _⟩

end Sys2Proof.Machine
end

section
/-! The opcode map and the two operand kinds (30_encoding.md sections 2 and 3). -/

namespace Sys2Proof.Machine

/-- Settles O4: each opcode byte decodes to its own operation, any other byte to the decoder's one refusal; the
arities are read off the table. -/
theorem opcodeTableIsClosed : Obligations.OpcodeTableIsClosed :=
  ⟨decodeOpcode_opcode .loadWord, decodeOpcode_opcode .storeWord, decodeOpcode_opcode .add, decodeOpcode_opcode .sub,
    decodeOpcode_opcode .halt, fun _ => decodeOpcode_unknown, rfl, rfl, rfl, rfl, rfl⟩

/-- Settles O5: a register byte is one of the two slot numbers or illegal; an address byte is used as it stands, and
the check on `addr + 1` splits the 256 bytes between 18 and 19 for the read and the write alike. -/
theorem operandBytesSelect : Obligations.OperandBytesSelect := by
  refine ⟨regSel_address .x1, regSel_address .x2, fun _ => regSel_error, fun _ => rfl, fun b m v => ?_⟩
  refine ⟨fun hin => ?_, fun hout => ?_⟩
  · have hfits : effectiveAddr b + 1 < 20 := Nat.lt_succ_of_le (Nat.succ_le_succ hin)
    exact ⟨_, _, memReadWord_ok hfits, memWriteWord_ok hfits v⟩
  · have hbeyond : ¬effectiveAddr b + 1 < 20 := Nat.not_lt_of_ge (Nat.succ_le_succ hout)
    exact ⟨memReadWord_error hbeyond, memWriteWord_error hbeyond v⟩

end Sys2Proof.Machine
end

section
/-! Where the machine has a transition (40_fetch_decode_sequencer.md R76). -/

namespace Sys2Proof.Machine

/-- No path of an instruction ends without a next state, whatever the run state (log 12). -/
theorem exec_exists_next (i : Instr) (s : State) : ∃ t, exec i s = .next t := by
  obtain ⟨t, ht, -⟩ | ⟨k, hk⟩ := exec_effect_or_fault i s
  · exact ⟨t, ht⟩
  · exact ⟨s.raise k, hk⟩

/-- Progress: in `Running` a failed fetch enters its fault, and a fetched instruction answers. -/
theorem step_exists_next {s : State} (hrun : s.run = .running) : ∃ t, step s = .next t := by
  cases hfetch : fetchInstr s.mem s.pc.toNat with
  | error k => exact ⟨s.raise k, step_of_fetch_error hrun hfetch⟩
  | ok i => rw [step_of_fetch_ok hrun hfetch]; exact exec_exists_next i s

/-- Settles O10: a step that answers started in `Running`, by the step's inversion; the converse is progress. -/
theorem stepExistsExactlyInRunning : Obligations.StepExistsExactlyInRunning :=
  fun _ => ⟨fun ⟨_, hstep⟩ => (step_cases hstep).1, step_exists_next⟩

end Sys2Proof.Machine
end

section
/-! When an instruction enters which fault, and what a fault and a completed instruction leave as it was
(60_exceptions.md sections 2, 3 and 8; the frame law of 40_fetch_decode_sequencer.md section 4). `ExecFault` stands
beside `Effect`: between them they are all that `exec` can do, and both are what it does. -/

namespace Sys2Proof.Machine

/-- The execute-stage checks that fail, with the kind each one raises. -/
inductive ExecFault (s : State) : Instr → FaultKind → Prop where
  | loadReg {b1 : Byte} (b2 : Byte) (h1 : b1 ≠ 1) (h2 : b1 ≠ 2) : ExecFault s (.loadWord b1 b2) .invalidOperand
  | loadAddr (r : Gpr) {b2 : Byte} (h : ¬b2.toNat + 1 < 20) : ExecFault s (.loadWord r.address b2) .outOfBounds
  | storeReg {b1 : Byte} (b2 : Byte) (h1 : b1 ≠ 1) (h2 : b1 ≠ 2) : ExecFault s (.storeWord b1 b2) .invalidOperand
  | storeAddr (r : Gpr) {b2 : Byte} (h : ¬b2.toNat + 1 < 20) : ExecFault s (.storeWord r.address b2) .outOfBounds
  | storeUninit {r : Gpr} {b2 : Byte} (h : b2.toNat + 1 < 20) (hr : s.reg r = none) :
      ExecFault s (.storeWord r.address b2) .uninitializedRegisterRead
  | addReg {b1 b2 : Byte} (h : b1 ≠ 1 ∧ b1 ≠ 2 ∨ b2 ≠ 1 ∧ b2 ≠ 2) : ExecFault s (.add b1 b2) .invalidOperand
  | addUninit {a b : Gpr} (h : s.reg a = none ∨ s.reg b = none) :
      ExecFault s (.add a.address b.address) .uninitializedRegisterRead
  | subReg {b1 b2 : Byte} (h : b1 ≠ 1 ∧ b1 ≠ 2 ∨ b2 ≠ 1 ∧ b2 ≠ 2) : ExecFault s (.sub b1 b2) .invalidOperand
  | subUninit {a b : Gpr} (h : s.reg a = none ∨ s.reg b = none) :
      ExecFault s (.sub a.address b.address) .uninitializedRegisterRead

section
variable {s t : State} {i : Instr} {k : FaultKind}

theorem arithBody_invalid {op : Word → Word → Word} {b1 b2 : Byte} (h : b1 ≠ 1 ∧ b1 ≠ 2 ∨ b2 ≠ 1 ∧ b2 ≠ 2) :
    arithBody op b1 b2 s = .error .invalidOperand :=
  h.elim (fun ⟨h1, h2⟩ => arithBody_invalid_a h1 h2) fun ⟨h1, h2⟩ => arithBody_invalid_b h1 h2

theorem exec_of_execFault (h : ExecFault s i k) : exec i s = .next (s.raise k) := by
  cases h with
  | loadReg b2 h1 h2 => exact congrArg s.finish (loadWordBody_invalid h1 h2)
  | loadAddr r h => exact congrArg s.finish (loadWordBody_bounds h)
  | storeReg b2 h1 h2 => exact congrArg s.finish (storeWordBody_invalid h1 h2)
  | storeAddr r h => exact congrArg s.finish (storeWordBody_bounds h)
  | storeUninit h hr => exact congrArg s.finish (storeWordBody_uninitialized h hr)
  | addReg h => exact congrArg s.finish (arithBody_invalid h)
  | addUninit h => exact congrArg s.finish (arithBody_uninitialized h)
  | subReg h => exact congrArg s.finish (arithBody_invalid h)
  | subUninit h => exact congrArg s.finish (arithBody_uninitialized h)

theorem exec_of_effect (h : Effect s i t) : exec i s = .next t := by
  cases h with
  | load r b2 h => exact congrArg s.finish (loadWordBody_ok h)
  | store r b2 v h hr => exact congrArg s.finish (storeWordBody_ok h hr)
  | add a b va vb ha hb => exact congrArg s.finish (arithBody_ok ha hb)
  | sub a b va vb ha hb => exact congrArg s.finish (arithBody_ok ha hb)
  | halt => rfl

/-- Some check fails, or the instruction has its effect: the checks of `ExecFault` are all there are. -/
theorem effect_or_execFault (i : Instr) (s : State) : (∃ t, Effect s i t) ∨ ∃ k, ExecFault s i k := by
  cases i with
  | loadWord b1 b2 =>
    obtain ⟨h1, h2, -⟩ | ⟨r, rfl, hb, -⟩ | ⟨r, rfl, hb, -⟩ := loadWordBody_cases b1 b2 s
    · exact .inr ⟨_, .loadReg b2 h1 h2⟩
    · exact .inr ⟨_, .loadAddr r hb⟩
    · exact .inl ⟨_, .load r b2 hb⟩
  | storeWord b1 b2 =>
    obtain ⟨h1, h2, -⟩ | ⟨r, rfl, hb, -⟩ | ⟨r, rfl, hb, hr, -⟩ | ⟨r, v, rfl, hb, hr, -⟩ :=
      storeWordBody_cases b1 b2 s
    · exact .inr ⟨_, .storeReg b2 h1 h2⟩
    · exact .inr ⟨_, .storeAddr r hb⟩
    · exact .inr ⟨_, .storeUninit hb hr⟩
    · exact .inl ⟨_, .store r b2 v hb hr⟩
  | add b1 b2 =>
    obtain ⟨h, -⟩ | ⟨a, b, rfl, rfl, h, -⟩ | ⟨a, b, va, vb, rfl, rfl, ha, hb, -⟩ := arithBody_cases aluAdd b1 b2 s
    · exact .inr ⟨_, .addReg h⟩
    · exact .inr ⟨_, .addUninit h⟩
    · exact .inl ⟨_, .add a b va vb ha hb⟩
  | sub b1 b2 =>
    obtain ⟨h, -⟩ | ⟨a, b, rfl, rfl, h, -⟩ | ⟨a, b, va, vb, rfl, rfl, ha, hb, -⟩ := arithBody_cases aluSub b1 b2 s
    · exact .inr ⟨_, .subReg h⟩
    · exact .inr ⟨_, .subUninit h⟩
    · exact .inl ⟨_, .sub a b va vb ha hb⟩
  | halt => exact .inl ⟨_, .halt⟩

/-- Inversion of `exec` that names the failed check. -/
theorem exec_inversion (h : exec i s = .next t) : Effect s i t ∨ ∃ k, ExecFault s i k ∧ t = s.raise k := by
  obtain ⟨u, hu⟩ | ⟨k, hk⟩ := effect_or_execFault i s
  · cases (exec_of_effect hu).symm.trans h; exact .inl hu
  · cases (exec_of_execFault hk).symm.trans h; exact .inr ⟨k, hk, rfl⟩

/-- Inversion of `step`, both sources of a fault taken together. -/
theorem step_effect_or_raise (h : step s = .next t) :
    (∃ i, fetchInstr s.mem s.pc.toNat = .ok i ∧ Effect s i t) ∨ ∃ k, t = s.raise k := by
  obtain ⟨-, ⟨k, -, ht⟩ | ⟨i, hf, -, he | hk⟩⟩ := step_cases h
  · exact .inr ⟨k, ht⟩
  · exact .inl ⟨i, hf, he⟩
  · exact .inr hk

/-! ### Entering a fault -/

theorem faultEntered_raise (k : FaultKind) (s : State) : FaultEntered k s (s.raise k) :=
  ⟨rfl, rfl, ⟨rfl, rfl⟩, rfl⟩

theorem exec_faultEntered (h : ExecFault s i k) : ∃ t, exec i s = .next t ∧ FaultEntered k s t :=
  ⟨_, exec_of_execFault h, faultEntered_raise k s⟩

theorem stepFaults_of_fetch (hrun : s.run = .running) (hf : fetchInstr s.mem s.pc.toNat = .error k) : StepFaults s k :=
  ⟨_, step_of_fetch_error hrun hf, faultEntered_raise k s⟩

theorem stepFaults_of_execFault (hrun : s.run = .running) (hf : fetchInstr s.mem s.pc.toNat = .ok i)
    (h : ExecFault s i k) : StepFaults s k :=
  ⟨_, (step_of_fetch_ok hrun hf).trans (exec_of_execFault h), faultEntered_raise k s⟩

/-! ### The frame of a completed instruction -/

theorem Effect.run_pc (h : Effect s i t) :
    (i ≠ .halt ∧ t.run = s.run ∧ t.pc = s.pc + 3) ∨ (i = .halt ∧ t = { s with run := .halted }) := by
  cases h with
  | halt => exact .inr ⟨rfl, rfl⟩
  | _ => exact .inl ⟨nofun, by simp, by simp⟩

theorem Effect.run_not_faulted (h : Effect s i t) (hrun : s.run = .running) : t.run ≠ .faulted k := by
  obtain ⟨-, ht, -⟩ | ⟨-, rfl⟩ := h.run_pc
  · rw [ht, hrun]; nofun
  · nofun

/-- A byte that an effect changes lies in the word of a store whose checks all passed. -/
theorem Effect.peek_ne (h : Effect s i t) {a : Nat} (hne : t.mem.peek a ≠ s.mem.peek a) :
    ∃ (r : Gpr) (b2 : Byte) (v : Word), i = .storeWord r.address b2 ∧ (a = b2.toNat ∨ a = b2.toNat + 1) ∧
      b2.toNat + 1 < 20 ∧ s.reg r = some v := by
  cases h with
  | store r b2 v h hr =>
    refine ⟨r, b2, v, rfl, by_contra fun hout => hne ?_, h, hr⟩
    obtain ⟨h0, h1⟩ := not_or.mp hout
    exact peek_pokeWord_other h0 h1 s.mem v
  | _ => exact absurd (by simp) hne

/-- After a write to `r` and the pc advance a register is `r`, and holds a value, or is as before. -/
theorem State.writeReg_advance_cases (s : State) (r q : Gpr) (v : Word) :
    (q = r ∧ (s.writeReg r v).advance.valid q = true) ∨ (s.writeReg r v).advance.reg q = s.reg q := by
  by_cases hq : q = r
  · subst hq; exact .inl ⟨rfl, by simp [State.valid]⟩
  · exact .inr ((State.advance_reg _ _).trans (State.reg_writeReg_other _ _ _ _ hq))

/-- A register is as before, or is the destination of an instruction that leaves it valid; `add` and `sub` found it
valid. -/
theorem Effect.reg_cases (h : Effect s i t) (q : Gpr) :
    t.reg q = s.reg q ∨ t.valid q = true ∧ ∃ b2, i = .loadWord q.address b2 ∨
      (i = .add q.address b2 ∨ i = .sub q.address b2) ∧ s.valid q = true := by
  cases h with
  | load r b2 h =>
    obtain ⟨rfl, ht⟩ | ht := State.writeReg_advance_cases s r q _
    · exact .inr ⟨ht, b2, .inl rfl⟩
    · exact .inl ht
  | store r b2 v h hr => exact .inl (by simp)
  | add a b va vb ha hb =>
    obtain ⟨rfl, ht⟩ | ht := State.writeReg_advance_cases s a q _
    · exact .inr ⟨ht, b.address, .inr ⟨.inl rfl, (s.valid_iff q).mpr ⟨va, ha⟩⟩⟩
    · exact .inl ht
  | sub a b va vb ha hb =>
    obtain ⟨rfl, ht⟩ | ht := State.writeReg_advance_cases s a q _
    · exact .inr ⟨ht, b.address, .inr ⟨.inr rfl, (s.valid_iff q).mpr ⟨va, ha⟩⟩⟩
    · exact .inl ht
  | halt => exact .inl (by simp)

theorem Effect.wf_mem (h : Effect s i t) (hwf : s.mem.wf = true) : t.mem.wf = true := by
  cases h with
  | store r b2 v h hr => exact wf_pokeWord hwf h v
  | _ => simpa using hwf

end

theorem toNat_add_three {p : Word} (h : p.toNat ≤ 11) : (p + 3).toNat = p.toNat + 3 := by
  rw [BitVec.toNat_add, show (3 : Word).toNat = 3 from rfl]; omega

/-- A step that completes an instruction other than `halt` moves the pc by 3, without wrap: it was fetched at a pc of
at most 11. -/
theorem Effect.pc_toNat {s t : State} {i : Instr} (h : Effect s i t) (hf : fetchInstr s.mem s.pc.toNat = .ok i)
    (hi : i ≠ .halt) : s.pc.toNat ≤ 11 ∧ t.pc.toNat = s.pc.toNat + 3 := by
  have hpc := pc_le_of_fetch_ok hf hi
  obtain ⟨-, -, ht⟩ | ⟨hhalt, -⟩ := h.run_pc
  · exact ⟨hpc, ht ▸ toNat_add_three hpc⟩
  · exact absurd hhalt hi

end Sys2Proof.Machine
end

section
/-! Decoding and encoding (30_encoding.md sections 1, 2 and 4): what `decode` can do, said once, and the two-way
identity read off it. -/

namespace Sys2Proof

theorem decode_halt (rest : List Byte) : decode (0xff :: rest) = .ok (.halt, rest) := rfl

theorem decode_triplet {k : OpKind} (hk : k ≠ .halt) (b1 b2 : Byte) (rest : List Byte) :
    decode (k.opcode :: b1 :: b2 :: rest) = .ok (k.triplet b1 b2, rest) := by
  cases k with
  | halt => exact absurd rfl hk
  | _ => rfl

theorem decode_unknown {b : Byte} (h : decodeOpcode b = .error .unknownOpcode) (rest : List Byte) :
    decode (b :: rest) = .error .unknownOpcode := by
  simp only [decode, h]

theorem decode_truncated {k : OpKind} (hk : k ≠ .halt) {rest : List Byte} (hshort : rest.length < 2) :
    decode (k.opcode :: rest) = .error .truncated := by
  have harity : ¬k.arity = 0 := mt OpKind.arity_eq_zero.mp hk
  match rest, hshort with
  | [], _ => simp only [decode, decodeOpcode_opcode, if_neg harity]
  | [_], _ => simp only [decode, decodeOpcode_opcode, if_neg harity]

/-- What decoding a byte sequence can do. -/
theorem decode_cases (bs : List Byte) :
    (bs = [] ∧ decode bs = .error .truncated) ∨
    (∃ b rest, bs = b :: rest ∧ decodeOpcode b = .error .unknownOpcode ∧ decode bs = .error .unknownOpcode) ∨
    (∃ rest, bs = 0xff :: rest ∧ decode bs = .ok (.halt, rest)) ∨
    ∃ (k : OpKind) (rest : List Byte), k ≠ .halt ∧ bs = k.opcode :: rest ∧
      ((rest.length < 2 ∧ decode bs = .error .truncated) ∨
        ∃ b1 b2 rest', rest = b1 :: b2 :: rest' ∧ decode bs = .ok (k.triplet b1 b2, rest')) := by
  cases bs with
  | nil => exact .inl ⟨rfl, rfl⟩
  | cons b rest =>
    cases hd : decodeOpcode b with
    | error e =>
      obtain ⟨rfl, -⟩ := decodeOpcode_error hd
      exact .inr (.inl ⟨b, rest, rfl, hd, decode_unknown hd rest⟩)
    | ok k =>
      obtain rfl := decodeOpcode_ok hd
      by_cases hk : k = .halt
      · subst hk; exact .inr (.inr (.inl ⟨rest, rfl, decode_halt rest⟩))
      · refine .inr (.inr (.inr ⟨k, rest, hk, rfl, ?_⟩))
        match rest with
        | [] => exact .inl ⟨Nat.zero_lt_two, decode_truncated hk Nat.zero_lt_two⟩
        | [_] => exact .inl ⟨Nat.one_lt_two, decode_truncated hk Nat.one_lt_two⟩
        | b1 :: b2 :: rest' => exact .inr ⟨b1, b2, rest', rfl, decode_triplet hk b1 b2 rest'⟩

theorem decode_encode (i : Instr) (rest : List Byte) : decode (encode i ++ rest) = .ok (i, rest) := by
  cases i with
  | loadWord b1 b2 => exact decode_triplet (k := .loadWord) nofun b1 b2 rest
  | storeWord b1 b2 => exact decode_triplet (k := .storeWord) nofun b1 b2 rest
  | add b1 b2 => exact decode_triplet (k := .add) nofun b1 b2 rest
  | sub b1 b2 => exact decode_triplet (k := .sub) nofun b1 b2 rest
  | halt => exact decode_halt rest

theorem eq_encode_of_decode {bs rest : List Byte} {i : Instr} (h : decode bs = .ok (i, rest)) :
    bs = encode i ++ rest := by
  obtain ⟨-, hd⟩ | ⟨b, r, -, -, hd⟩ | ⟨r, rfl, hd⟩ | ⟨k, r, hk, rfl, ⟨-, hd⟩ | ⟨b1, b2, r', rfl, hd⟩⟩ :=
    decode_cases bs <;> cases hd.symm.trans h
  · rfl
  · rw [OpKind.encode_triplet hk]; rfl

theorem decode_eq_ok_iff (bs rest : List Byte) (i : Instr) : decode bs = .ok (i, rest) ↔ bs = encode i ++ rest :=
  ⟨eq_encode_of_decode, fun h => h ▸ decode_encode i rest⟩

/-- The opcode bytes listed out (R54, R58). -/
theorem decodeOpcode_eq_unknown_iff (b : Byte) :
    decodeOpcode b = .error .unknownOpcode ↔ b ∉ ([0x01, 0x02, 0x03, 0x04, 0xff] : List Byte) := by
  simp only [List.mem_cons, List.not_mem_nil, or_false, not_or]
  exact ⟨fun h => (decodeOpcode_error h).2, fun ⟨h1, h2, h3, h4, h5⟩ => decodeOpcode_unknown h1 h2 h3 h4 h5⟩

/-- The opcode bytes of the instructions with operands, listed out. -/
theorem mem_triplet_opcodes_iff (b : Byte) :
    b ∈ ([0x01, 0x02, 0x03, 0x04] : List Byte) ↔ ∃ k : OpKind, k ≠ .halt ∧ b = k.opcode := by
  constructor
  · simp only [List.mem_cons, List.not_mem_nil, or_false]
    rintro (rfl | rfl | rfl | rfl)
    exacts [⟨.loadWord, nofun, rfl⟩, ⟨.storeWord, nofun, rfl⟩, ⟨.add, nofun, rfl⟩, ⟨.sub, nofun, rfl⟩]
  · rintro ⟨k, hk, rfl⟩
    cases k with
    | halt => exact absurd rfl hk
    | _ => decide

theorem decode_eq_unknown_iff (bs : List Byte) :
    decode bs = .error .unknownOpcode ↔ ∃ b rest, bs = b :: rest ∧ decodeOpcode b = .error .unknownOpcode := by
  constructor
  · intro h
    obtain ⟨-, hd⟩ | ⟨b, r, hbs, hb, -⟩ | ⟨r, -, hd⟩ | ⟨k, r, -, -, ⟨-, hd⟩ | ⟨b1, b2, r', -, hd⟩⟩ := decode_cases bs
    case inr.inl => exact ⟨b, r, hbs, hb⟩
    all_goals cases hd.symm.trans h
  · rintro ⟨b, rest, rfl, hb⟩
    exact decode_unknown hb rest

theorem decode_eq_truncated_iff (bs : List Byte) :
    decode bs = .error .truncated ↔
      bs = [] ∨ ∃ (k : OpKind) (rest : List Byte), k ≠ .halt ∧ bs = k.opcode :: rest ∧ rest.length < 2 := by
  constructor
  · intro h
    obtain ⟨hbs, -⟩ | ⟨b, r, -, -, hd⟩ | ⟨r, -, hd⟩ | ⟨k, r, hk, hbs, ⟨hshort, -⟩ | ⟨b1, b2, r', -, hd⟩⟩ :=
      decode_cases bs
    case inl => exact .inl hbs
    case inr.inr.inr.inl => exact .inr ⟨k, r, hk, hbs, hshort⟩
    all_goals cases hd.symm.trans h
  · rintro (rfl | ⟨k, rest, hk, rfl, hshort⟩)
    · rfl
    · exact decode_truncated hk hshort

/-- Settles O7: the case analysis of `decode` gives the identity and the two rejections over operation kinds; the
bytes of the statement's lists are the opcodes of those kinds. -/
theorem decodeInvertsEncode : Obligations.DecodeInvertsEncode := by
  refine ⟨decode_eq_ok_iff, fun bs => ?_, fun bs => ?_⟩
  · simp only [decode_eq_unknown_iff, decodeOpcode_eq_unknown_iff]
  · rw [decode_eq_truncated_iff]
    refine or_congr_right ⟨?_, ?_⟩
    · rintro ⟨k, rest, hk, rfl, hshort⟩
      exact ⟨_, rest, rfl, (mem_triplet_opcodes_iff _).mpr ⟨k, hk, rfl⟩, hshort⟩
    · rintro ⟨b, rest, rfl, hb, hshort⟩
      obtain ⟨k, hk, rfl⟩ := (mem_triplet_opcodes_iff b).mp hb
      exact ⟨k, rest, hk, rfl, hshort⟩

/-- Settles O6: five words are encodings and decode by the identity; the sixth begins with no opcode. -/
theorem wordsFromTheTableDecode : Obligations.WordsFromTheTableDecode :=
  ⟨decode_encode (.loadWord 1 16) [], decode_encode (.storeWord 2 14) [], decode_encode (.add 1 2) [],
    decode_encode (.sub 2 1) [], decode_encode .halt [], decode_unknown (by decide) _⟩

end Sys2Proof

namespace Sys2Proof.Machine

/-- An instruction whose bytes stand at `pc`, in front of a run of bytes that ends in the instruction region, is the
one fetched. -/
theorem fetchInstr_of_bytes {m : Memory} {pc : Nat} {bs rest : List Byte} {i : Instr}
    (hbs : bs = encode i ++ rest)
    (hat : ∀ j (hj : j < bs.length), m.peek (pc + j) = bs[j])
    (hend : ∀ j, j < (encode i).length → pc + j ≤ 13) : fetchInstr m pc = .ok i := by
  subst hbs
  have hbyte : ∀ j (hj : j < (encode i).length), m.peek (pc + j) = (encode i)[j] := fun j hj =>
    (hat j (by rw [List.length_append]; omega)).trans (List.getElem_append_left hj)
  have htriplet : ∀ (k : OpKind) (b1 b2 : Byte), k ≠ .halt → i = k.triplet b1 b2 → fetchInstr m pc = .ok i := by
    rintro k b1 b2 hk rfl
    simp only [OpKind.encode_triplet hk] at hbyte hend
    have hopcode : m.peek pc = k.opcode := hbyte 0 (by simp)
    have hb1 : m.peek (pc + 1) = b1 := hbyte 1 (by simp)
    have hb2 : m.peek (pc + 2) = b2 := hbyte 2 (by simp)
    rw [fetchInstr_triplet hopcode (hend 2 (by simp)), hb1, hb2]
  cases i with
  | loadWord b1 b2 => exact htriplet .loadWord b1 b2 nofun rfl
  | storeWord b1 b2 => exact htriplet .storeWord b1 b2 nofun rfl
  | add b1 b2 => exact htriplet .add b1 b2 nofun rfl
  | sub b1 b2 => exact htriplet .sub b1 b2 nofun rfl
  | halt => exact fetchInstr_halt (hend 0 (by decide)) (hbyte 0 (by decide))

theorem length_fetchableBytes (m : Memory) (pc : Nat) : (fetchableBytes m pc).length = 14 - pc := by
  simp [fetchableBytes]

theorem getElem_fetchableBytes (m : Memory) (pc : Nat) {j : Nat} (hj : j < (fetchableBytes m pc).length) :
    (fetchableBytes m pc)[j] = m.peek (pc + j) := by
  simp [fetchableBytes]

theorem fetchInstr_of_decode {m : Memory} {pc : Nat} {i : Instr} {rest : List Byte}
    (h : decode (fetchableBytes m pc) = .ok (i, rest)) : fetchInstr m pc = .ok i := by
  have hbs := eq_encode_of_decode h
  refine fetchInstr_of_bytes hbs (fun j hj => (getElem_fetchableBytes m pc hj).symm) fun j hj => ?_
  have hlen := congrArg List.length hbs
  rw [length_fetchableBytes, List.length_append] at hlen
  omega

/-- Settles O9: the fetch unit fetches what the fetchable bytes decode to, and the step hands it to `exec`. -/
theorem stepRunsTheDecodedInstruction : Obligations.StepRunsTheDecodedInstruction :=
  fun _ _ _ hrun hdecode => step_of_fetch_ok hrun (fetchInstr_of_decode hdecode)

theorem placePc_fits (s : State) : s.placePc.toNat + 2 ≤ 13 := by
  unfold State.placePc
  split
  · assumption
  · decide

theorem length_encode_le (i : Instr) : (encode i).length ≤ 3 := by cases i <;> simp [encode]

/-- A word that decodes is the encoding of its instruction, perhaps followed by bytes that are no part of it. -/
theorem tableWordBytes_eq_of_decode {nbits w : Nat} {i : Instr} (h : decodeTableWord nbits w = some i) :
    ∃ rest, tableWordBytes nbits w = encode i ++ rest := by
  unfold decodeTableWord at h
  split at h
  · next rest hd => cases h; exact ⟨rest, eq_encode_of_decode hd⟩
  · cases h

/-- Settles O43: the three bytes placed where the next fetch looks begin with the encoding of `i`; the placing
writes memory, pc and run state only. -/
theorem placedWordRunsNext : Obligations.PlacedWordRunsNext := by
  intro s nbits w i hwf hdecode
  obtain ⟨rest, hbs⟩ := tableWordBytes_eq_of_decode hdecode
  have hlen : (tableWordBytes nbits w).length = 3 := rfl
  have hpc := placePc_fits s
  have hlen' := length_encode_le i
  refine ⟨step_of_fetch_ok rfl (fetchInstr_of_bytes hbs (fun j hj => ?_) fun j hj => ?_), rfl, rfl⟩
  · exact peek_placeBytes _ hwf hj (by omega)
  · change s.placePc.toNat + j ≤ 13; omega

end Sys2Proof.Machine
end

section
/-! The pseudocode of R75 (40_fetch_decode_sequencer.md section 2): what each branch of `Pseudo.step` answers, how the
record of a state follows each update of the state, and the refinement. -/

namespace Sys2Proof.Machine

/-! ### The record of an updated state -/

theorem State.pseudo_x (s : State) (r : Gpr) : s.pseudo.x r.address.toNat = (s.reg r).map BitVec.toNat := by
  cases r <;> rfl

theorem State.pseudo_writeReg (s : State) (r : Gpr) (v : Word) :
    (s.writeReg r v).pseudo = { s.pseudo with x := setAt s.pseudo.x r.address.toNat (some v.toNat) } := by
  have hx : (s.writeReg r v).pseudo.x = setAt s.pseudo.x r.address.toNat (some v.toNat) := by
    funext j
    cases r with
    | x1 =>
      by_cases hj : j = 1
      · subst hj; rfl
      · simp [pseudo, setAt, writeReg, Gpr.address, hj]
    | x2 =>
      by_cases hj : j = 2
      · subst hj; rfl
      · simp [pseudo, setAt, writeReg, Gpr.address, hj]
  rw [← hx]
  cases r <;> rfl

theorem State.pseudo_advance {s : State} (hpc : s.pc.toNat ≤ 11) :
    s.advance.pseudo = { s.pseudo with pc := s.pseudo.pc + 3 } := by
  simp only [pseudo, State.advance_pc, toNat_add_three hpc, State.advance_mem, State.advance_x1, State.advance_x2,
    State.advance_run]

theorem State.pseudo_pokeWord {s : State} (hwf : s.mem.wf = true) {a : Nat} (ha : a + 1 < 20) (v : Word) :
    ({ s with mem := s.mem.pokeWord a v } : State).pseudo =
      { s.pseudo with mem := setAt (setAt s.pseudo.mem a (v.toNat % 256)) (a + 1) (v.toNat / 256) } := by
  have hmem : (fun c => ((s.mem.pokeWord a v).peek c).toNat) =
      setAt (setAt s.pseudo.mem a (v.toNat % 256)) (a + 1) (v.toNat / 256) := by
    funext c
    by_cases h1 : c = a + 1
    · subst h1; rw [peek_pokeWord_high hwf ha, highByte_toNat]; simp [setAt]
    · by_cases h0 : c = a
      · subst h0; rw [peek_pokeWord_low hwf, lowByte_toNat]; simp [setAt]
      · rw [peek_pokeWord_other h0 h1]; simp [setAt, h0, h1, pseudo]
  rw [← hmem]
  rfl

theorem Gpr.address_toNat (r : Gpr) : r.address.toNat = 1 ∨ r.address.toNat = 2 := by cases r <;> decide

/-! ### The execute stage -/

section
variable {s t : State} {i : Instr} {b0 b1 b2 : Byte}

/-- The pseudocode's register test fails on no register address. -/
theorem Gpr.pseudo_legal (r : Gpr) : ¬(r.address.toNat ≠ 1 ∧ r.address.toNat ≠ 2) := by
  have := r.address_toNat; omega

theorem byte_pseudo_illegal {b : Byte} (h1 : b ≠ 1) (h2 : b ≠ 2) : b.toNat ≠ 1 ∧ b.toNat ≠ 2 :=
  ⟨BitVec.toNat_ne.mp h1, BitVec.toNat_ne.mp h2⟩

/-- The pseudocode's difference is the remainder of the exact one (R101). -/
theorem aluSub_toNat (va vb : Word) : (aluSub va vb).toNat =
    if vb.toNat ≤ va.toNat then va.toNat - vb.toNat else va.toNat + 65536 - vb.toNat := by
  have h := aluSub_toInt va vb
  have := va.isLt; have := vb.isLt
  split <;> omega

theorem pseudo_execute_invalid {p : Pseudo} {b0 : Nat} (h0 : b0 = 3 ∨ b0 = 4)
    (h : b1 ≠ 1 ∧ b1 ≠ 2 ∨ b2 ≠ 1 ∧ b2 ≠ 2) :
    p.execute b0 b1.toNat b2.toNat = p.raise .invalidOperand := by
  unfold Pseudo.execute
  by_cases h1 : b1.toNat ≠ 1 ∧ b1.toNat ≠ 2
  · rw [if_pos h1]
  · have h2 : b2.toNat ≠ 1 ∧ b2.toNat ≠ 2 := by simpa [BitVec.toNat_ne, h1] using h
    rw [if_neg h1, if_neg (by omega), if_neg (by omega), if_pos h2]

theorem pseudo_execute_uninitialized {b0 : Nat} (h0 : b0 = 3 ∨ b0 = 4) {a b : Gpr}
    (h : s.reg a = none ∨ s.reg b = none) :
    s.pseudo.execute b0 a.address.toNat b.address.toNat = s.pseudo.raise .uninitializedRegisterRead := by
  unfold Pseudo.execute
  rw [if_neg a.pseudo_legal, if_neg (by omega), if_neg (by omega), if_neg b.pseudo_legal, State.pseudo_x,
    State.pseudo_x]
  cases ha : s.reg a with
  | none => rfl
  | some va => rw [h.resolve_left (by simp [ha])]; rfl

/-- The pseudocode raises what the failed check of `ExecFault` raises: the same check, at the same place in the order
(D4). -/
theorem pseudo_execute_of_execFault {k : FaultKind} (h : ExecFault s i k) (hi : encode i = [b0, b1, b2]) :
    s.pseudo.execute b0.toNat b1.toNat b2.toNat = s.pseudo.raise k := by
  cases h with
  | loadReg b2 h1 h2 => cases hi; exact if_pos (byte_pseudo_illegal h1 h2)
  | loadAddr r h =>
    cases hi; unfold Pseudo.execute
    rw [if_neg r.pseudo_legal, if_pos (by decide), if_pos (by omega)]
  | storeReg b2 h1 h2 => cases hi; exact if_pos (byte_pseudo_illegal h1 h2)
  | storeAddr r h =>
    cases hi; unfold Pseudo.execute
    rw [if_neg r.pseudo_legal, if_neg (by decide), if_pos (by decide), if_pos (by omega)]
  | @storeUninit r b2 h hr =>
    cases hi; unfold Pseudo.execute
    rw [if_neg r.pseudo_legal, if_neg (by decide), if_pos (by decide), if_neg (by omega), State.pseudo_x, hr]
    rfl
  | addReg h => cases hi; exact pseudo_execute_invalid (.inl rfl) h
  | addUninit h => cases hi; exact pseudo_execute_uninitialized (.inl rfl) h
  | subReg h => cases hi; exact pseudo_execute_invalid (.inr rfl) h
  | subUninit h => cases hi; exact pseudo_execute_uninitialized (.inr rfl) h

/-- The pseudocode makes the one change the instruction makes, and moves the pc by the same 3. -/
theorem pseudo_execute_of_effect (hwf : s.mem.wf = true) (hpc : s.pc.toNat ≤ 11) (h : Effect s i t)
    (hi : encode i = [b0, b1, b2]) : s.pseudo.execute b0.toNat b1.toNat b2.toNat = t.pseudo := by
  have hadvance : ∀ (r : Gpr) (v : Word), (s.writeReg r v).advance.pseudo =
      { s.pseudo with x := setAt s.pseudo.x r.address.toNat (some v.toNat), pc := s.pseudo.pc + 3 } := fun r v => by
    rw [State.pseudo_advance (by simpa using hpc), State.pseudo_writeReg]
  cases h with
  | load r b2 h =>
    cases hi; unfold Pseudo.execute
    rw [if_neg r.pseudo_legal, if_pos (by decide), if_neg (by omega), hadvance, wordOfBytes_toNat, Nat.mul_comm 256]
    rfl
  | store r b2 v h hr =>
    cases hi; unfold Pseudo.execute
    rw [if_neg r.pseudo_legal, if_neg (by decide), if_pos (by decide), if_neg (by omega), State.pseudo_x, hr,
      State.pseudo_advance (s := { s with mem := s.mem.pokeWord b2.toNat v }) hpc, State.pseudo_pokeWord hwf h]
    rfl
  | add a b va vb ha hb =>
    cases hi; unfold Pseudo.execute
    rw [if_neg a.pseudo_legal, if_neg (by decide), if_neg (by decide), if_neg b.pseudo_legal, State.pseudo_x,
      State.pseudo_x, ha, hb, hadvance, aluAdd_toNat]
    rfl
  | sub a b va vb ha hb =>
    cases hi; unfold Pseudo.execute
    rw [if_neg a.pseudo_legal, if_neg (by decide), if_neg (by decide), if_neg b.pseudo_legal, State.pseudo_x,
      State.pseudo_x, ha, hb, hadvance, aluSub_toNat]
    rfl
  | halt => cases hi

theorem pseudo_execute (hwf : s.mem.wf = true) (hpc : s.pc.toNat ≤ 11) (h : exec i s = .next t)
    (hi : encode i = [b0, b1, b2]) : s.pseudo.execute b0.toNat b1.toNat b2.toNat = t.pseudo := by
  obtain he | ⟨k, hk, rfl⟩ := exec_inversion h
  · exact pseudo_execute_of_effect hwf hpc he hi
  · exact pseudo_execute_of_execFault hk hi

end

/-! ### The step -/

section
variable {s : State}

theorem pseudo_step_bound (hrun : s.run = .running) (h : 13 < s.pc.toNat) :
    s.pseudo.step = some (s.raise .outOfBounds).pseudo := by
  simp only [Pseudo.step, State.pseudo, hrun]
  rw [if_pos h]
  rfl

theorem pseudo_step_halt (hrun : s.run = .running) (h : s.pc.toNat ≤ 13) (h0 : s.mem.peek s.pc.toNat = 0xff) :
    s.pseudo.step = some ({ s with run := .halted } : State).pseudo := by
  simp only [Pseudo.step, State.pseudo, hrun, h0]
  rw [if_neg (by omega), if_pos (by decide)]

theorem pseudo_step_unknown (hrun : s.run = .running) (h : s.pc.toNat ≤ 13)
    (h0 : decodeOpcode (s.mem.peek s.pc.toNat) = .error .unknownOpcode) :
    s.pseudo.step = some (s.raise .unknownOpcode).pseudo := by
  obtain ⟨-, h1, h2, h3, h4, h5⟩ := decodeOpcode_error h0
  simp only [BitVec.toNat_ne, BitVec.reduceToNat] at h1 h2 h3 h4 h5
  simp only [Pseudo.step, State.pseudo, hrun]
  rw [if_neg (by omega), if_neg h5, if_pos (by omega)]
  rfl

theorem OpKind.opcode_toNat {k : OpKind} (hk : k ≠ .halt) : 1 ≤ k.opcode.toNat ∧ k.opcode.toNat ≤ 4 := by
  cases k with
  | halt => exact absurd rfl hk
  | _ => decide

theorem pseudo_step_operands (hrun : s.run = .running) (h : s.pc.toNat ≤ 13) {k : OpKind} (hk : k ≠ .halt)
    (h0 : s.mem.peek s.pc.toNat = k.opcode) :
    s.pseudo.step = if s.pc.toNat + 2 ≤ 13 then
      some (s.pseudo.execute k.opcode.toNat (s.mem.peek (s.pc.toNat + 1)).toNat (s.mem.peek (s.pc.toNat + 2)).toNat)
      else some (s.raise .outOfBounds).pseudo := by
  obtain ⟨hlo, hhi⟩ := OpKind.opcode_toNat hk
  by_cases h2 : s.pc.toNat + 2 ≤ 13
  · simp only [Pseudo.step, State.pseudo, hrun, h0]
    rw [if_neg (by omega), if_neg (by omega), if_neg (by omega), if_neg (by omega), if_pos h2]
  · simp only [Pseudo.step, State.pseudo, hrun, h0]
    rw [if_neg (by omega), if_neg (by omega), if_neg (by omega), if_pos (by omega), if_neg h2]
    rfl

/-- In `Running` both steps exist, and end in the same record. -/
theorem pseudo_step_of_running {t : State} (hwf : s.mem.wf = true) (hrun : s.run = .running)
    (h : step s = .next t) : s.pseudo.step = some t.pseudo := by
  rw [step_running hrun] at h
  obtain ⟨hpc, hf⟩ | ⟨hpc, h0, hf⟩ | ⟨hpc, h0, hf⟩ | ⟨k, hk, h0, ⟨hpc, h2, hf⟩ | ⟨h2, hf⟩⟩ :=
    fetchInstr_cases s.mem s.pc.toNat <;> rw [hf] at h
  · cases h; exact pseudo_step_bound hrun hpc
  · cases h; exact pseudo_step_unknown hrun hpc h0
  · cases h; exact pseudo_step_halt hrun hpc h0
  · cases h; rw [pseudo_step_operands hrun hpc hk h0, if_neg (by omega)]
  · rw [pseudo_step_operands hrun (by omega) hk h0, if_pos h2]
    exact congrArg some (pseudo_execute hwf (by omega) h (OpKind.encode_triplet hk _ _))

theorem pseudo_step_eq_none (hrun : s.run ≠ .running) : s.pseudo.step = none := by
  cases hr : s.run with
  | running => exact absurd hr hrun
  | halted => simp only [Pseudo.step, State.pseudo, hr]
  | faulted k => simp only [Pseudo.step, State.pseudo, hr]

end

/-- Settles O11: the fetch unit's five outcomes are the pseudocode's five branches, and in the last of them each failed
check and each effect of `exec` is that of `Pseudo.execute`; outside `Running` neither has a step. -/
theorem stepRefinesThePseudocode : Obligations.StepRefinesThePseudocode := by
  intro s hwf
  refine ⟨fun t ht => pseudo_step_of_running hwf (step_cases ht).1 ht, fun hnone t ht => ?_, fun hno => ?_⟩
  · cases hnone.symm.trans (pseudo_step_of_running hwf (step_cases ht).1 ht)
  · refine pseudo_step_eq_none fun hrun => ?_
    obtain ⟨t, ht⟩ := step_exists_next hrun
    exact hno t ht

end Sys2Proof.Machine
end

section
/-! The invariant (10_state.md sections 2 and 6; 20_memory.md section 1): where it holds, and that steps keep it. -/

namespace Sys2Proof.Machine

theorem mem_reachablePcs_iff (p : Word) : p ∈ reachablePcs ↔ p = 0 ∨ p = 3 ∨ p = 6 ∨ p = 9 ∨ p = 12 := by
  simp only [reachablePcs, List.mem_cons, List.not_mem_nil, or_false]

theorem reachablePcs_closed {p : Word} (h : p ∈ reachablePcs) (hle : p.toNat ≤ 11) : p + 3 ∈ reachablePcs := by
  obtain rfl | rfl | rfl | rfl | rfl := (mem_reachablePcs_iff p).mp h
  case inr.inr.inr.inr => exact absurd hle (by decide)
  all_goals decide

theorem reachablePcs_toNat {p : Word} (h : p ∈ reachablePcs) : p.toNat ∈ [0, 3, 6, 9, 12] := by
  obtain rfl | rfl | rfl | rfl | rfl := (mem_reachablePcs_iff p).mp h <;> decide

theorem inv_step {s t : State} (hinv : s.Inv) (h : step s = .next t) : t.Inv := by
  obtain ⟨hwf, hpc⟩ := hinv
  obtain ⟨i, hf, he⟩ | ⟨k, rfl⟩ := step_effect_or_raise h
  · refine ⟨he.wf_mem hwf, ?_⟩
    obtain ⟨hi, -, ht⟩ | ⟨-, rfl⟩ := he.run_pc
    · rw [ht]; exact reachablePcs_closed hpc (pc_le_of_fetch_ok hf hi)
    · exact hpc
  · exact ⟨hwf, hpc⟩

/-- Settles O38: an effect keeps the canonical form and moves the pc by 3 only from a pc of at most 11, so never past
12; `halt` and a fault leave both parts alone. -/
theorem stepKeepsTheInvariant : Obligations.StepKeepsTheInvariant := fun _ _ => inv_step

theorem loadImage_eq_ok {image : List Byte} {s : State} (h : loadImage image = .ok s) :
    image.length = 20 ∧ s = { State.reset with mem := placeBytes [] 0 image } := by
  unfold loadImage at h
  split at h
  · next hlen => cases h; exact ⟨hlen, rfl⟩
  · cases h

theorem inv_loaded {image : List Byte} {s : State} (h : loadImage image = .ok s) : s.Inv := by
  obtain ⟨-, rfl⟩ := loadImage_eq_ok h
  exact ⟨wf_placeBytes image rfl 0, (mem_reachablePcs_iff 0).mpr (.inl rfl)⟩

/-- Settles O37: the loader starts from the empty memory, which is canonical, and placing bytes keeps it so. -/
theorem theInvariantHoldsAtReset : Obligations.TheInvariantHoldsAtReset :=
  ⟨⟨rfl, (mem_reachablePcs_iff 0).mpr (.inl rfl)⟩, fun _ _ => inv_loaded⟩

theorem stepTimes_succ {n : Nat} {s t : State} :
    stepTimes (n + 1) s = some t ↔ ∃ u, step s = .next u ∧ stepTimes n u = some t := by
  simp only [stepTimes]
  constructor
  · intro h
    split at h
    · next u hu => exact ⟨u, hu, h⟩
    · cases h
  · rintro ⟨u, hu, h⟩
    rw [hu]
    exact h

/-- What every step keeps holds along a run. -/
theorem stepTimes_induction {P : State → Prop} (hstep : ∀ {s t}, P s → step s = .next t → P t) {n : Nat} {s t : State}
    (hs : P s) (h : stepTimes n s = some t) : P t := by
  induction n generalizing s with
  | zero => cases h; exact hs
  | succ n ih =>
    obtain ⟨u, hu, h⟩ := stepTimes_succ.mp h
    exact ih (hstep hs hu) h

/-- Settles O1: the reset state's fields are its definition's, and twenty zero bytes placed list no cell. -/
theorem resetIsTheZeroImage : Obligations.ResetIsTheZeroImage :=
  ⟨rfl, rfl, rfl, rfl, Memory.peek_nil, loadImage_of_length (List.length_replicate ..)⟩

end Sys2Proof.Machine
end

section
/-! One step: what it can do to the pc, to memory, to the registers, and which faults it enters (10_state.md sections 1
and 2; 40_fetch_decode_sequencer.md sections 2 and 4; 60_exceptions.md sections 3 and 8). -/

namespace Sys2Proof.Machine

section
variable {s t : State} {i : Instr} {k : FaultKind}

/-- Settles O13: an effect ends in no fault, and `State.raise` writes the run state only. -/
theorem faultEntryChangesOnlyTheRunState : Obligations.FaultEntryChangesOnlyTheRunState := by
  intro s t k h hk
  obtain ⟨i, -, he⟩ | ⟨k', rfl⟩ := step_effect_or_raise h
  · exact absurd hk (he.run_not_faulted (step_cases h).1)
  · cases hk; exact faultEntered_raise k s

/-- `halt` is fetched from its own byte only. -/
theorem peek_of_fetch_halt {m : Memory} {pc : Nat} (h : fetchInstr m pc = .ok .halt) : m.peek pc = 0xff := by
  obtain ⟨-, hf⟩ | ⟨-, -, hf⟩ | ⟨-, h0, -⟩ | ⟨k, hk, -, ⟨-, -, hf⟩ | ⟨-, hf⟩⟩ := fetchInstr_cases m pc
  case inr.inr.inl => exact h0
  case inr.inr.inr.inr =>
    have htriplet := Except.ok.inj (hf.symm.trans h)
    cases k with
    | halt => exact absurd rfl hk
    | _ => cases htriplet
  all_goals cases hf.symm.trans h

/-- A step that stays in `Running` moves the pc by 3, from a value of at most 11. -/
theorem pc_of_step_running (h : step s = .next t) (ht : t.run = .running) :
    s.pc.toNat ≤ 11 ∧ t.pc.toNat = s.pc.toNat + 3 := by
  obtain ⟨i, hf, he⟩ | ⟨k, rfl⟩ := step_effect_or_raise h
  · refine he.pc_toNat hf fun hi => ?_
    subst hi
    cases he
    cases ht
  · cases ht

/-- A step that halts fetched `halt`, and writes the run state only. -/
theorem step_halted (h : step s = .next t) (ht : t.run = .halted) :
    fetchInstr s.mem s.pc.toNat = .ok .halt ∧ t = { s with run := .halted } := by
  obtain ⟨i, hf, he⟩ | ⟨k, rfl⟩ := step_effect_or_raise h
  · obtain ⟨-, hrun, -⟩ | ⟨rfl, rfl⟩ := he.run_pc
    · cases ht.symm.trans (hrun.trans (step_cases h).1)
    · exact ⟨hf, rfl⟩
  · cases ht

/-- Settles O14: the three run states a step can end in, each with what it does to the pc. -/
theorem pcMovesByThreeOrNotAtAll : Obligations.PcMovesByThreeOrNotAtAll := by
  refine ⟨rfl, fun image s h => ?_, fun s t h => ⟨fun ht => (pc_of_step_running h ht).2, fun ht => ?_, fun k hk => ?_⟩⟩
  · obtain ⟨-, rfl⟩ := loadImage_eq_ok h
    rfl
  · obtain ⟨hf, rfl⟩ := step_halted h ht
    exact ⟨rfl, peek_of_fetch_halt hf⟩
  · obtain ⟨-, hpc, -⟩ := faultEntryChangesOnlyTheRunState s t k h hk
    exact hpc

/-- Settles O15: from an arbitrary pc by what the fetch unit answers there; from reset by the invariant along the
run. -/
theorem pcStaysInRange : Obligations.PcStaysInRange := by
  refine ⟨fun s t h => ⟨fun hpc => ?_, fun _ ht => ?_, fun hpc hne => ?_⟩, fun image s n t hload hsteps => ?_⟩
  · obtain ⟨u, hu, hfault⟩ := stepFaults_of_fetch (step_cases h).1 (fetchInstr_pc_bound (Nat.not_le_of_gt hpc))
    cases hu.symm.trans h
    exact hfault
  · obtain ⟨hle, heq⟩ := pc_of_step_running h ht
    exact ⟨heq, by omega⟩
  · obtain ⟨i, hf, -⟩ | ⟨k, rfl⟩ := step_effect_or_raise h
    · by_cases hi : i = .halt
      · subst hi; exact absurd (peek_of_fetch_halt hf) hne
      · have := pc_le_of_fetch_ok hf hi; omega
    · exact ⟨k, faultEntered_raise k s⟩
  · obtain ⟨-, hpc⟩ := stepTimes_induction inv_step (inv_loaded hload) hsteps
    exact reachablePcs_toNat hpc

/-- An effect other than `halt`'s, in a step, leaves the machine in `Running`. -/
theorem Effect.run_running (h : Effect s i t) (hrun : s.run = .running) (hi : i ≠ .halt) : t.run = .running := by
  obtain ⟨-, ht, -⟩ | ⟨hhalt, -⟩ := h.run_pc
  · exact ht.trans hrun
  · exact absurd hhalt hi

/-- Settles O16: the frame of an effect names the instruction that changed a byte or a register; a fault changes
neither. -/
theorem stepChangesOnlyWhatTheInstructionNames : Obligations.StepChangesOnlyWhatTheInstructionNames := by
  intro s t h
  have hrun := (step_cases h).1
  obtain ⟨i, hf, he⟩ | ⟨k, rfl⟩ := step_effect_or_raise h
  · refine ⟨fun a hne => ?_, fun r hne => ?_⟩
    · obtain ⟨r, b2, -, rfl, ha, -⟩ := he.peek_ne hne
      exact ⟨r.address, b2, hf, ha, he.run_running hrun nofun⟩
    · obtain ⟨-, b2, rfl | ⟨rfl | rfl, -⟩⟩ := (he.reg_cases r).resolve_left hne
      · exact ⟨he.run_running hrun nofun, b2, .inl hf⟩
      · exact ⟨he.run_running hrun nofun, b2, .inr (.inl hf)⟩
      · exact ⟨he.run_running hrun nofun, b2, .inr (.inr hf)⟩
  · exact ⟨fun a hne => absurd rfl hne, fun r hne => absurd (s.raise_reg r k) hne⟩

/-- Settles O17: an effect leaves a register as it is or valid, and the destination of `add` and `sub` was valid
before. -/
theorem onlyLoadWordSetsAValidBit : Obligations.OnlyLoadWordSetsAValidBit := by
  intro s t r h
  have hsame : t.reg r = s.reg r → t.valid r = s.valid r := congrArg Option.isSome
  obtain ⟨i, hf, he⟩ | ⟨k, rfl⟩ := step_effect_or_raise h
  · obtain heq | ⟨ht, b2, hload | ⟨-, hs⟩⟩ := he.reg_cases r
    · exact ⟨fun hs => (hsame heq).trans hs, fun hs ht => by simp [hsame heq, hs] at ht⟩
    · subst hload
      exact ⟨fun _ => ht, fun _ _ => ⟨he.run_running (step_cases h).1 nofun, b2, hf⟩⟩
    · exact ⟨fun _ => ht, fun hs' => by simp [hs] at hs'⟩
  · have heq := hsame (s.raise_reg r k)
    exact ⟨fun hs => heq.trans hs, fun hs ht => by simp [heq, hs] at ht⟩

/-! ### Faults -/

theorem fetchInstr_error_kind {m : Memory} {pc : Nat} (h : fetchInstr m pc = .error k) :
    k = .outOfBounds ∨ k = .unknownOpcode := by
  obtain ⟨-, hf⟩ | ⟨-, -, hf⟩ | ⟨-, -, hf⟩ | ⟨k', -, -, ⟨-, -, hf⟩ | ⟨-, hf⟩⟩ := fetchInstr_cases m pc <;>
    cases hf.symm.trans h
  exacts [.inl rfl, .inr rfl, .inl rfl]

theorem canRaise_of_execFault (h : ExecFault s i k) : canRaise i k = true := by cases h <;> rfl

/-- Every entry of the matrix occurs, and in the reset state: both registers are uninitialized there. -/
theorem execFault_of_canRaise (i : Instr) (k : FaultKind) (h : canRaise i k = true) :
    ∃ j, (encode j).head? = (encode i).head? ∧ ExecFault State.reset j k := by
  match i, k, h with
  | .loadWord .., .invalidOperand, _ => exact ⟨.loadWord 0 0, rfl, .loadReg 0 (by decide) (by decide)⟩
  | .loadWord .., .outOfBounds, _ => exact ⟨.loadWord 1 19, rfl, .loadAddr .x1 (by decide)⟩
  | .storeWord .., .invalidOperand, _ => exact ⟨.storeWord 0 0, rfl, .storeReg 0 (by decide) (by decide)⟩
  | .storeWord .., .outOfBounds, _ => exact ⟨.storeWord 1 19, rfl, .storeAddr .x1 (by decide)⟩
  | .storeWord .., .uninitializedRegisterRead, _ =>
    exact ⟨.storeWord 1 18, rfl, .storeUninit (r := .x1) (by decide) rfl⟩
  | .add .., .invalidOperand, _ => exact ⟨.add 0 1, rfl, .addReg (by decide)⟩
  | .add .., .uninitializedRegisterRead, _ => exact ⟨.add 1 2, rfl, .addUninit (a := .x1) (b := .x2) (.inl rfl)⟩
  | .sub .., .invalidOperand, _ => exact ⟨.sub 0 1, rfl, .subReg (by decide)⟩
  | .sub .., .uninitializedRegisterRead, _ => exact ⟨.sub 1 2, rfl, .subUninit (a := .x1) (b := .x2) (.inl rfl)⟩

/-- Settles O18: each failed check of `ExecFault` is an entry of the matrix, and each entry is met by one of them. -/
theorem faultsFollowTheMatrix : Obligations.FaultsFollowTheMatrix := by
  refine ⟨fun s t k h hk => ?_, fun i k h => ?_⟩
  · obtain ⟨hrun, ⟨k', hf, rfl⟩ | ⟨i, hf, hexec, -⟩⟩ := step_cases h
    · cases hk; exact .inl ⟨hf, fetchInstr_error_kind hf⟩
    · obtain he | ⟨k', hk', rfl⟩ := exec_inversion hexec
      · exact absurd hk (he.run_not_faulted hrun)
      · cases hk; exact .inr ⟨i, hf, canRaise_of_execFault hk'⟩
  · obtain ⟨j, hj, hfault⟩ := execFault_of_canRaise i k h
    obtain ⟨t, ht⟩ := exec_faultEntered hfault
    exact ⟨j, State.reset, t, hj, rfl, ht⟩

/-! ### Legal operand bytes -/

@[simp] theorem regOperandLegal_address (r : Gpr) : regOperandLegal r.address = true := by cases r <;> rfl

theorem regOperandLegal_eq_false {b : Byte} (h1 : b ≠ 1) (h2 : b ≠ 2) : regOperandLegal b = false := by
  rw [← Bool.not_eq_true, regOperandLegal_iff]
  exact not_or.mpr ⟨h1, h2⟩

theorem addrOperandLegal_of_fits {b : Byte} (h : b.toNat + 1 < 20) : addrOperandLegal b = true :=
  decide_eq_true h

theorem addrOperandLegal_eq_false {b : Byte} (h : ¬b.toNat + 1 < 20) : addrOperandLegal b = false :=
  decide_eq_false h

theorem Effect.wellFormed (h : Effect s i t) : i.wellFormed = true := by
  cases h with
  | load r b2 h => simp [Instr.wellFormed, addrOperandLegal_of_fits h]
  | store r b2 v h hr => simp [Instr.wellFormed, addrOperandLegal_of_fits h]
  | add a b va vb ha hb => simp [Instr.wellFormed]
  | sub a b va vb ha hb => simp [Instr.wellFormed]
  | halt => rfl

/-- The checks split in two: the one on register contents, which an instruction meets with legal operand bytes, and
those on the operand bytes, which only an illegal one fails. -/
theorem ExecFault.wellFormed_or (h : ExecFault s i k) :
    (i.wellFormed = true ∧ k = .uninitializedRegisterRead) ∨
      (i.wellFormed = false ∧ (k = .invalidOperand ∨ k = .outOfBounds)) := by
  have hpair : ∀ {b1 b2 : Byte}, b1 ≠ 1 ∧ b1 ≠ 2 ∨ b2 ≠ 1 ∧ b2 ≠ 2 →
      (regOperandLegal b1 && regOperandLegal b2) = false := fun h => by
    obtain ⟨h1, h2⟩ | ⟨h1, h2⟩ := h <;> simp [regOperandLegal_eq_false h1 h2]
  cases h with
  | loadReg b2 h1 h2 => exact .inr ⟨by simp [Instr.wellFormed, regOperandLegal_eq_false h1 h2], .inl rfl⟩
  | loadAddr r h => exact .inr ⟨by simp [Instr.wellFormed, addrOperandLegal_eq_false h], .inr rfl⟩
  | storeReg b2 h1 h2 => exact .inr ⟨by simp [Instr.wellFormed, regOperandLegal_eq_false h1 h2], .inl rfl⟩
  | storeAddr r h => exact .inr ⟨by simp [Instr.wellFormed, addrOperandLegal_eq_false h], .inr rfl⟩
  | storeUninit h hr => exact .inl ⟨by simp [Instr.wellFormed, addrOperandLegal_of_fits h], rfl⟩
  | addReg h => exact .inr ⟨hpair h, .inl rfl⟩
  | addUninit h => exact .inl ⟨by simp [Instr.wellFormed], rfl⟩
  | subReg h => exact .inr ⟨hpair h, .inl rfl⟩
  | subUninit h => exact .inl ⟨by simp [Instr.wellFormed], rfl⟩

/-- Settles O8: an effect needs legal operand bytes, and a failed check is on the operand bytes exactly when one of
them is illegal. -/
theorem illFormedInstructionsFault : Obligations.IllFormedInstructionsFault := by
  refine fun i s hrun => ⟨fun hwf t k h hk => ?_, fun hill => ?_⟩
  · obtain he | ⟨k', hk', rfl⟩ := exec_inversion h
    · exact absurd hk (he.run_not_faulted hrun)
    · cases hk
      obtain ⟨-, hkind⟩ | ⟨hill, -⟩ := hk'.wellFormed_or
      · exact hkind
      · simp [hwf] at hill
  · obtain ⟨t, he⟩ | ⟨k, hk⟩ := effect_or_execFault i s
    · simp [he.wellFormed] at hill
    · obtain ⟨hwf, -⟩ | ⟨-, hkind⟩ := hk.wellFormed_or
      · simp [hwf] at hill
      · obtain ⟨t, ht, hfault⟩ := exec_faultEntered hk
        exact ⟨t, k, ht, hfault, hkind⟩

end

end Sys2Proof.Machine
end

section
/-! Memory and fetch (20_memory.md sections 2, 3 and 7; 40_fetch_decode_sequencer.md section 4). -/

namespace Sys2Proof.Machine

/-- Settles O21: the one bounds check decides; the two byte writes then give the word, leave the other bytes and keep
the canonical form. -/
theorem wordWriteIsLittleEndian : Obligations.WordWriteIsLittleEndian := by
  intro m a v hwf
  refine ⟨fun hout => memWriteWord_error (Nat.not_lt_of_ge hout) v, fun hin => ?_⟩
  have ha : a + 1 < 20 := Nat.lt_succ_of_le hin
  refine ⟨m.pokeWord a v, memWriteWord_ok ha v, wf_pokeWord hwf ha v, ?_, ?_, fun b h0 h1 =>
    peek_pokeWord_other h0 h1 m v⟩
  · rw [peek_pokeWord_low hwf, lowByte_toNat]
  · rw [peek_pokeWord_high hwf ha, highByte_toNat]

theorem peek_pokeWord {m : Memory} (h : m.wf = true) {a : Nat} (ha : a + 1 < 20) (v : Word) (c : Nat) :
    (m.pokeWord a v).peek c = if c = a then lowByte v else if c = a + 1 then highByte v else m.peek c := by
  split
  · next h0 => subst h0; exact peek_pokeWord_low h c v
  · next h0 =>
    split
    · next h1 => subst h1; exact peek_pokeWord_high h ha v
    · next h1 => exact peek_pokeWord_other h0 h1 m v

/-- An opcode with operands whose third byte lies past the fetch limit: the fetch unit raises `OutOfBounds`, at the
opcode or at an operand (R72). -/
theorem stepFaults_operand_bound {s : State} (hrun : s.run = .running) {k : OpKind} (hk : k ≠ .halt)
    (h0 : s.mem.peek s.pc.toNat = k.opcode) (hpc : 13 < s.pc.toNat + 2) : StepFaults s .outOfBounds := by
  refine stepFaults_of_fetch hrun ?_
  by_cases h : s.pc.toNat ≤ 13
  · exact fetchInstr_operand_bound h hk h0 (Nat.not_le_of_gt hpc)
  · exact fetchInstr_pc_bound h

theorem step_halt {s : State} (hrun : s.run = .running) (hpc : s.pc.toNat ≤ 13)
    (h0 : s.mem.peek s.pc.toNat = 0xff) : step s = exec .halt s :=
  step_of_fetch_ok hrun (fetchInstr_halt hpc h0)

/-- Settles O22: the fetch limit of a byte, and at 12 and 13 the limit met by the opcode fetch only. -/
theorem fetchStopsAtThirteen : Obligations.FetchStopsAtThirteen := by
  refine ⟨fun m a => ⟨fetchByte_ok, fun h => fetchByte_error (by omega)⟩, fun s hrun => ⟨fun h => ?_, fun hpc =>
    ⟨fun h0 => ?_, fun h0 => ?_⟩⟩⟩
  · exact stepFaults_of_fetch hrun (fetchInstr_pc_bound (by omega))
  · obtain ⟨k, hk, h0⟩ := (mem_triplet_opcodes_iff _).mp h0
    exact stepFaults_operand_bound hrun hk h0 (by omega)
  · exact ⟨_, step_halt hrun (by omega) h0, rfl⟩

/-- At a pc where no instruction with operands reaches byte 13, the fetch unit depends on no byte from 13 on. -/
theorem fetchInstr_congr {m m' : Memory} {pc : Nat} (hpc : pc ≤ 12) (hne : pc ≠ 11)
    (heq : ∀ a, a ≤ 12 → m'.peek a = m.peek a) : fetchInstr m' pc = fetchInstr m pc := by
  have h0' := heq pc hpc
  obtain ⟨h, -⟩ | ⟨h, h0, hf⟩ | ⟨h, h0, hf⟩ | ⟨k, hk, h0, ⟨h, h2, hf⟩ | ⟨h2, hf⟩⟩ := fetchInstr_cases m pc
  · omega
  · rw [hf, fetchInstr_unknown h (h0' ▸ h0)]
  · rw [hf, fetchInstr_halt h (h0' ▸ h0)]
  · rw [hf, fetchInstr_operand_bound h hk (h0' ▸ h0) (by omega)]
  · rw [hf, fetchInstr_triplet (h0' ▸ h0) h2, heq (pc + 1) (by omega), heq (pc + 2) (by omega)]

/-- Settles O23: 11 is the one pc up to 12 where an operand is byte 13, and no run from reset is there. -/
theorem fetchIgnoresByteThirteenAndAbove : Obligations.FetchIgnoresByteThirteenAndAbove := by
  intro m m' pc hpc heq
  have hmem := reachablePcs_toNat hpc
  simp only [List.mem_cons, List.not_mem_nil, or_false] at hmem
  exact fetchInstr_congr (by omega) (by omega) heq

end Sys2Proof.Machine
end

section
/-! The rules of the instructions (41_load_store.md, 42_arithmetic.md, 43_halt.md): encodings, faults in order, results
and frames. Each fault clause is a check of `ExecFault`, each completion an `Effect`. -/

namespace Sys2Proof.Machine

/-- What a completed register write leaves alone, and the pc advance after it. -/
theorem writeReg_advance_frame (s : State) (r : Gpr) (v : Word) :
    SameRegsBut r s (s.writeReg r v).advance ∧ SameBytes s (s.writeReg r v).advance ∧
      (s.writeReg r v).advance.pc = s.pc + 3 ∧ (s.writeReg r v).advance.run = s.run :=
  ⟨fun q hq => (State.advance_reg _ _).trans (State.reg_writeReg_other _ _ _ _ hq), fun a => by simp, by simp, by simp⟩

theorem reg_writeReg_advance (s : State) (r : Gpr) (v : Word) : (s.writeReg r v).advance.reg r = some v := by simp

theorem exec_load {s : State} (r : Gpr) {b2 : Byte} (h : b2.toNat ≤ 18) : exec (.loadWord r.address b2) s =
    .next (s.writeReg r (wordOfBytes (s.mem.peek b2.toNat) (s.mem.peek (b2.toNat + 1)))).advance :=
  exec_of_effect (.load r b2 (by omega))

theorem exec_store {s : State} {r : Gpr} {v : Word} {b2 : Byte} (h : b2.toNat ≤ 18) (hr : s.reg r = some v) :
    exec (.storeWord r.address b2) s = .next ({ s with mem := s.mem.pokeWord b2.toNat v } : State).advance :=
  exec_of_effect (.store r b2 v (by omega) hr)

/-- Settles O24: the register byte is checked before the address; what passes both is the effect. -/
theorem loadWordFollowsItsRule : Obligations.LoadWordFollowsItsRule := by
  refine fun b1 b2 s => ⟨rfl, fun h1 h2 => exec_faultEntered (.loadReg b2 h1 h2), fun r hr h => ?_, fun r hr h => ?_,
    fun hrun h0 hpc => stepFaults_operand_bound (k := .loadWord) hrun nofun h0 hpc⟩
  · subst hr
    exact exec_faultEntered (.loadAddr r (by omega))
  · subst hr
    refine ⟨_, _, exec_load r h, reg_writeReg_advance _ _ _, ?_, writeReg_advance_frame s r _⟩
    rw [wordOfBytes_toNat, Nat.mul_comm 256]

/-- Settles O25: the checks in the order register byte, address, register contents; what passes all three stores the
word's two bytes. -/
theorem storeWordFollowsItsRule : Obligations.StoreWordFollowsItsRule := by
  refine fun b1 b2 s hwf => ⟨rfl, fun h1 h2 => exec_faultEntered (.storeReg b2 h1 h2), fun r hr h => ?_,
    fun r hr h hv => ?_, fun r v hr h hv => ?_,
    fun hrun h0 hpc => stepFaults_operand_bound (k := .storeWord) hrun nofun h0 hpc⟩
  · subst hr
    exact exec_faultEntered (.storeAddr r (by omega))
  · subst hr
    exact exec_faultEntered (.storeUninit (by omega) ((s.not_valid_iff r).mp hv))
  · subst hr
    refine ⟨_, exec_store h hv, ?_, ?_, fun a h0 h1 => peek_pokeWord_other h0 h1 s.mem v, ⟨rfl, rfl⟩, rfl, rfl⟩
    · rw [State.advance_mem, peek_pokeWord_low hwf, lowByte_toNat]
    · rw [State.advance_mem, peek_pokeWord_high hwf (by omega), highByte_toNat]

/-- Settles O26: a word's two bytes are its low and its high byte, so what is loaded is stored back byte for byte, and
what is stored is loaded back as the word it was. -/
theorem loadStoreRoundTrip : Obligations.LoadStoreRoundTrip := by
  refine fun s r b hwf hb => ⟨fun a ha => ?_, fun q hv => ?_⟩
  · refine ⟨_, _, exec_load r ha, exec_store hb (reg_writeReg_advance _ _ _), ?_, ?_, ?_⟩
    · simp
    · simp only [State.advance_mem, State.writeReg_mem]
      rw [peek_pokeWord_low hwf, lowByte_wordOfBytes]
    · simp only [State.advance_mem, State.writeReg_mem]
      rw [peek_pokeWord_high hwf (by omega), highByte_wordOfBytes]
  · obtain ⟨v, hv⟩ := (s.valid_iff r).mp hv
    refine ⟨_, _, exec_store hb hv, exec_load q hb, by simp, ?_⟩
    rw [reg_writeReg_advance, State.advance_mem, peek_pokeWord_low hwf, peek_pokeWord_high hwf (by omega),
      wordOfBytes_low_high, hv]

/-- Settles O27: the step is the fetched store's effect, and a fetch reads the memory that effect left. -/
theorem storeIsSeenByLaterFetches : Obligations.StoreIsSeenByLaterFetches := by
  intro s b1 b2 r v hwf hrun hpc h0 h1 h2 hr hb hv
  have hf : fetchInstr s.mem s.pc.toNat = .ok (.storeWord r.address b2) := by
    rw [fetchInstr_triplet (k := .storeWord) h0 (by omega), h1, h2, hr]
    rfl
  refine ⟨_, (step_of_fetch_ok hrun hf).trans (exec_store hb hv), hrun, rfl, fun a ha => ?_⟩
  rw [State.advance_mem, fetchByte_ok ha, peek_pokeWord hwf (by omega)]

/-- Settles O28: the effect writes the word at its address, in memory only. -/
theorem storeWordFrame : Obligations.StoreWordFrame := by
  intro b1 b2 s t h
  obtain he | ⟨k, -, rfl⟩ := exec_inversion h
  · cases he with
    | store r b2 v hb hr =>
      refine ⟨⟨rfl, rfl⟩, fun addr haddr a h0 h1 => ?_, .inl rfl⟩
      subst haddr
      exact peek_pokeWord_other h0 h1 s.mem v
  · exact ⟨⟨rfl, rfl⟩, fun _ _ _ _ _ => rfl, .inr ⟨k, faultEntered_raise k s⟩⟩

/-- Settles O29: an effect that changes a byte is a store's, and one that changes a register names it as `B1`. -/
theorem loadAndArithmeticFrame : Obligations.LoadAndArithmeticFrame := by
  intro i b1 b2 s t hi h
  obtain he | ⟨k, -, rfl⟩ := exec_inversion h
  · refine ⟨fun a => by_contra fun hne => ?_, fun r hr => by_contra fun hne => ?_, .inl ?_⟩
    · obtain ⟨r, b, -, rfl, -⟩ := he.peek_ne hne
      simp at hi
    · obtain ⟨-, b, hload | ⟨hadd | hsub, -⟩⟩ := (he.reg_cases r).resolve_left hne
      · simp [hload, hr] at hi
      · simp [hadd, hr] at hi
      · simp [hsub, hr] at hi
    · obtain ⟨-, ht, -⟩ | ⟨rfl, -⟩ := he.run_pc
      · exact ht
      · simp at hi
  · exact ⟨fun _ => rfl, fun r _ => s.raise_reg r k, .inr ⟨k, faultEntered_raise k s⟩⟩

/-! ### `add` and `sub` -/

theorem not_mem_regs_iff (b : Byte) : b ∉ ([1, 2] : List Byte) ↔ b ≠ 1 ∧ b ≠ 2 := by
  simp only [List.mem_cons, List.not_mem_nil, or_false, not_or]

section
variable {s : State} {a b : Gpr} {va vb : Word}

theorem exec_add_ok (ha : s.reg a = some va) (hb : s.reg b = some vb) :
    exec (.add a.address b.address) s = .next (s.writeReg a (aluAdd va vb)).advance :=
  exec_of_effect (.add a b va vb ha hb)

theorem exec_sub_ok (ha : s.reg a = some va) (hb : s.reg b = some vb) :
    exec (.sub a.address b.address) s = .next (s.writeReg a (aluSub va vb)).advance :=
  exec_of_effect (.sub a b va vb ha hb)

theorem reg_none_of_invalid (h : s.valid a = false ∨ s.valid b = false) : s.reg a = none ∨ s.reg b = none :=
  h.imp (s.not_valid_iff a).mp (s.not_valid_iff b).mp

end

/-- Settles O30: both register bytes are checked before either register is read; the sum is taken on naturals. -/
theorem addFollowsItsRule : Obligations.AddFollowsItsRule := by
  refine fun b1 b2 s => ⟨rfl, fun h => ?_, fun a b ha hb h => ?_, fun a b va vb ha hb hva hvb => ?_,
    fun hrun h0 hpc => stepFaults_operand_bound (k := .add) hrun nofun h0 hpc⟩
  · exact exec_faultEntered (.addReg (by simpa only [not_mem_regs_iff] using h))
  · subst ha hb
    exact exec_faultEntered (.addUninit (reg_none_of_invalid h))
  · subst ha hb
    exact ⟨_, _, exec_add_ok hva hvb, reg_writeReg_advance _ _ _, aluAdd_toNat va vb, writeReg_advance_frame s a _⟩

/-- Settles O31: the checks are `add`'s; the difference is taken on integers, A first. -/
theorem subFollowsItsRule : Obligations.SubFollowsItsRule := by
  refine fun b1 b2 s => ⟨rfl, fun h => ?_, fun a b ha hb h => ?_, fun a b va vb ha hb hva hvb => ?_,
    fun hrun h0 hpc => stepFaults_operand_bound (k := .sub) hrun nofun h0 hpc⟩
  · exact exec_faultEntered (.subReg (by simpa only [not_mem_regs_iff] using h))
  · subst ha hb
    exact exec_faultEntered (.subUninit (reg_none_of_invalid h))
  · subst ha hb
    exact ⟨_, _, exec_sub_ok hva hvb, reg_writeReg_advance _ _ _, aluSub_toInt va vb, writeReg_advance_frame s a _⟩

/-- Settles O32: both effects are a write to A, which was valid already. -/
theorem addAndSubWriteOnlyTheirDestination : Obligations.AddAndSubWriteOnlyTheirDestination := by
  intro i a b s hi ha hb
  obtain ⟨va, hva⟩ := (s.valid_iff a).mp ha
  obtain ⟨vb, hvb⟩ := (s.valid_iff b).mp hb
  have hexec : ∃ w, exec i s = .next (s.writeReg a w).advance := by
    obtain rfl | rfl := hi
    · exact ⟨_, exec_add_ok hva hvb⟩
    · exact ⟨_, exec_sub_ok hva hvb⟩
  obtain ⟨w, hexec⟩ := hexec
  obtain ⟨hregs, hbytes, hpc, hrun⟩ := writeReg_advance_frame s a w
  refine ⟨_, hexec, hbytes, hregs, fun r => ?_, hrun, hpc⟩
  obtain ⟨rfl, hr⟩ | hr := State.writeReg_advance_cases s a r w
  · exact hr.trans ha.symm
  · exact congrArg Option.isSome hr

/-- Settles O33: v + v is 2v, and v - v is 0. -/
theorem sameRegisterDoublesOrClears : Obligations.SameRegisterDoublesOrClears := by
  refine fun r s => ⟨fun v hv => ⟨?_, ?_⟩, fun hr => ?_⟩
  · exact ⟨_, _, exec_add_ok hv hv, by simp, reg_writeReg_advance _ _ _, by rw [aluAdd_toNat, two_mul]⟩
  · exact ⟨_, exec_sub_ok hv hv, by simp, by rw [reg_writeReg_advance, aluSub_eq, BitVec.sub_self]; rfl⟩
  · have hnone := reg_none_of_invalid (a := r) (b := r) (.inl hr)
    exact ⟨exec_faultEntered (.addUninit hnone), exec_faultEntered (.subUninit hnone)⟩

/-- Settles O34: `sub` finds B as `add` left it, as it was, and va + vb - vb is va. -/
theorem subUndoesAdd : Obligations.SubUndoesAdd := by
  intro a b s hne ha hb
  obtain ⟨va, hva⟩ := (s.valid_iff a).mp ha
  obtain ⟨vb, hvb⟩ := (s.valid_iff b).mp hb
  obtain ⟨hregs, -⟩ := writeReg_advance_frame s a (aluAdd va vb)
  refine ⟨_, _, exec_add_ok hva hvb,
    exec_sub_ok (reg_writeReg_advance _ _ _) ((hregs b hne.symm).trans hvb), ?_, fun c => by simp, by simp⟩
  refine (State.reg_eq_iff _ _).mpr fun q => ?_
  by_cases hq : q = a
  · subst hq
    rw [reg_writeReg_advance, aluSub_eq, aluAdd_eq, BitVec.add_sub_cancel, hva]
  · rw [(writeReg_advance_frame _ a _).1 q hq, hregs q hq]

/-! ### No instruction reads the pc -/

section
variable {s t : State} {i : Instr} {k : FaultKind}

theorem State.writeReg_withPc (s : State) (r : Gpr) (v p : Word) :
    ({ s with pc := p } : State).writeReg r v = { s.writeReg r v with pc := p } := by cases r <;> rfl

theorem Effect.withPc (h : Effect s i t) (p : Word) :
    ∃ u, Effect { s with pc := p } i u ∧ u.mem = t.mem ∧ SameRegs t u ∧ u.run = t.run := by
  have hreg : ∀ {q : Gpr} {v : Word}, s.reg q = some v → ({ s with pc := p } : State).reg q = some v := fun hq =>
    (State.withPc_reg ..).trans hq
  cases h with
  | load r b2 h => exact ⟨_, .load r b2 h, by rw [State.writeReg_withPc]; exact ⟨rfl, ⟨rfl, rfl⟩, rfl⟩⟩
  | store r b2 v h hr => exact ⟨_, .store r b2 v h (hreg hr), rfl, ⟨rfl, rfl⟩, rfl⟩
  | add a b va vb ha hb =>
    exact ⟨_, .add a b va vb (hreg ha) (hreg hb), by rw [State.writeReg_withPc]; exact ⟨rfl, ⟨rfl, rfl⟩, rfl⟩⟩
  | sub a b va vb ha hb =>
    exact ⟨_, .sub a b va vb (hreg ha) (hreg hb), by rw [State.writeReg_withPc]; exact ⟨rfl, ⟨rfl, rfl⟩, rfl⟩⟩
  | halt => exact ⟨_, .halt, rfl, ⟨rfl, rfl⟩, rfl⟩

theorem ExecFault.withPc (h : ExecFault s i k) (p : Word) : ExecFault { s with pc := p } i k := by
  have hreg : ∀ {q : Gpr}, s.reg q = none → ({ s with pc := p } : State).reg q = none := fun hq =>
    (State.withPc_reg ..).trans hq
  cases h with
  | loadReg b2 h1 h2 => exact .loadReg b2 h1 h2
  | loadAddr r h => exact .loadAddr r h
  | storeReg b2 h1 h2 => exact .storeReg b2 h1 h2
  | storeAddr r h => exact .storeAddr r h
  | storeUninit h hr => exact .storeUninit h (hreg hr)
  | addReg h => exact .addReg h
  | addUninit h => exact .addUninit (h.imp hreg hreg)
  | subReg h => exact .subReg h
  | subUninit h => exact .subUninit (h.imp hreg hreg)

/-- Settles O35: the checks and the effects speak of operand bytes, registers and memory, which a change of the pc
leaves alone. -/
theorem noInstructionReadsThePc : Obligations.NoInstructionReadsThePc := by
  intro i s t p h
  obtain he | ⟨k, hk, rfl⟩ := exec_inversion h
  · obtain ⟨u, hu, hsame⟩ := he.withPc p
    exact ⟨u, exec_of_effect hu, hsame⟩
  · exact ⟨_, exec_of_execFault (hk.withPc p), rfl, ⟨rfl, rfl⟩, rfl⟩

end

end Sys2Proof.Machine
end

section
/-! The order of the checks (60_exceptions.md section 2) and `halt` (43_halt.md). The execute-stage checks of R127,
orders 5 to 7, are stated for an operation kind and its two operand bytes, in the rule's own words. -/

namespace Sys2Proof.Machine

section
variable {s : State} {k : OpKind} {b1 b2 : Byte}

/-- Order 5: an operand byte in a register position is no register address. -/
abbrev IllegalRegister (k : OpKind) (b1 b2 : Byte) : Prop :=
  b1 ∉ ([1, 2] : List Byte) ∨ (k.opcode = 0x03 ∨ k.opcode = 0x04) ∧ b2 ∉ ([1, 2] : List Byte)

/-- Order 6: the data word at `B2` does not lie in the memory. -/
abbrev IllegalAddress (k : OpKind) (b2 : Byte) : Prop := (k.opcode = 0x01 ∨ k.opcode = 0x02) ∧ 19 ≤ b2.toNat

/-- Order 7: a register the instruction reads is uninitialized. -/
abbrev ReadsUninitialized (s : State) (k : OpKind) (b1 b2 : Byte) : Prop :=
  k.opcode ≠ 0x01 ∧ s.NamesUninitialized b1 ∨ (k.opcode = 0x03 ∨ k.opcode = 0x04) ∧ s.NamesUninitialized b2

theorem namesUninitialized_address (s : State) (r : Gpr) : s.NamesUninitialized r.address ↔ s.reg r = none := by
  rw [← State.not_valid_iff]
  cases r with
  | x1 => exact ⟨fun h => h.elim And.right fun h => absurd h.1 (by decide), fun h => .inl ⟨rfl, h⟩⟩
  | x2 => exact ⟨fun h => h.elim (fun h => absurd h.1 (by decide)) And.right, fun h => .inr ⟨rfl, h⟩⟩

theorem exists_address_of_mem_regs {b : Byte} (h : ¬b ∉ ([1, 2] : List Byte)) : ∃ r : Gpr, b = r.address :=
  (address_cases b).resolve_right (mt (not_mem_regs_iff b).mpr h)

theorem execFault_of_illegalRegister (hk : k ≠ .halt) (h : IllegalRegister k b1 b2) :
    ExecFault s (k.triplet b1 b2) .invalidOperand := by
  simp only [IllegalRegister, not_mem_regs_iff] at h
  cases k with
  | loadWord =>
    obtain ⟨h1, h2⟩ := h.resolve_right fun h => absurd h.1 (by decide)
    exact .loadReg b2 h1 h2
  | storeWord =>
    obtain ⟨h1, h2⟩ := h.resolve_right fun h => absurd h.1 (by decide)
    exact .storeReg b2 h1 h2
  | add => exact .addReg (h.imp_right And.right)
  | sub => exact .subReg (h.imp_right And.right)
  | halt => exact absurd rfl hk

theorem execFault_of_illegalAddress (hreg : ¬IllegalRegister k b1 b2) (h : IllegalAddress k b2) :
    ExecFault s (k.triplet b1 b2) .outOfBounds := by
  obtain ⟨hb1, -⟩ := not_or.mp hreg
  obtain ⟨r, rfl⟩ := exists_address_of_mem_regs hb1
  obtain ⟨hk, hb2⟩ := h
  cases k with
  | loadWord => exact .loadAddr r (by omega)
  | storeWord => exact .storeAddr r (by omega)
  | _ => exact absurd hk (by decide)

theorem execFault_of_readsUninitialized (hk : k ≠ .halt) (hreg : ¬IllegalRegister k b1 b2)
    (haddr : ¬IllegalAddress k b2) (h : ReadsUninitialized s k b1 b2) :
    ExecFault s (k.triplet b1 b2) .uninitializedRegisterRead := by
  obtain ⟨hb1, hb2⟩ := not_or.mp hreg
  obtain ⟨a, rfl⟩ := exists_address_of_mem_regs hb1
  simp only [ReadsUninitialized, namesUninitialized_address] at h
  have hsecond : k.opcode = 0x03 ∨ k.opcode = 0x04 → ∃ b : Gpr, b2 = b.address := fun h =>
    exists_address_of_mem_regs fun hout => hb2 ⟨h, hout⟩
  cases k with
  | loadWord => exact absurd h (by simp [OpKind.opcode])
  | storeWord =>
    obtain ⟨-, ha⟩ := h.resolve_right fun h => absurd h.1 (by decide)
    exact .storeUninit (by have := not_and.mp haddr (.inr rfl); omega) ha
  | add =>
    obtain ⟨b, rfl⟩ := hsecond (.inl rfl)
    exact .addUninit (h.imp And.right fun h => (namesUninitialized_address s b).mp h.2)
  | sub =>
    obtain ⟨b, rfl⟩ := hsecond (.inr rfl)
    exact .subUninit (h.imp And.right fun h => (namesUninitialized_address s b).mp h.2)
  | halt => exact absurd rfl hk

/-- Each failed check is one of the three orders, so an instruction none of them stops has its effect. -/
theorem order_of_execFault {e : FaultKind} (h : ExecFault s (k.triplet b1 b2) e) :
    IllegalRegister k b1 b2 ∨ IllegalAddress k b2 ∨ ReadsUninitialized s k b1 b2 := by
  have hreads : ∀ {a b : Gpr}, k.opcode = 0x03 ∨ k.opcode = 0x04 → k.opcode ≠ 0x01 →
      s.reg a = none ∨ s.reg b = none → ReadsUninitialized s k a.address b.address := fun hk hk' h =>
    h.imp (fun h => ⟨hk', (namesUninitialized_address s _).mpr h⟩)
      fun h => ⟨hk, (namesUninitialized_address s _).mpr h⟩
  have hillegal : (b1 ≠ 1 ∧ b1 ≠ 2 ∨ b2 ≠ 1 ∧ b2 ≠ 2) → (k.opcode = 0x03 ∨ k.opcode = 0x04) →
      IllegalRegister k b1 b2 := fun h hk =>
    h.imp (not_mem_regs_iff b1).mpr fun h => ⟨hk, (not_mem_regs_iff b2).mpr h⟩
  cases k with
  | loadWord =>
    cases h with
    | loadReg _ h1 h2 => exact .inl (.inl ((not_mem_regs_iff b1).mpr ⟨h1, h2⟩))
    | loadAddr r h => exact .inr (.inl ⟨.inl rfl, by omega⟩)
  | storeWord =>
    cases h with
    | storeReg _ h1 h2 => exact .inl (.inl ((not_mem_regs_iff b1).mpr ⟨h1, h2⟩))
    | storeAddr r h => exact .inr (.inl ⟨.inr rfl, by omega⟩)
    | @storeUninit r _ h hr =>
      exact .inr (.inr (.inl ⟨by decide, (namesUninitialized_address s r).mpr hr⟩))
  | add =>
    cases h with
    | addReg h => exact .inl (hillegal h (.inl rfl))
    | addUninit h => exact .inr (.inr (hreads (.inl rfl) (by decide) h))
  | sub =>
    cases h with
    | subReg h => exact .inl (hillegal h (.inr rfl))
    | subUninit h => exact .inr (.inr (hreads (.inr rfl) (by decide) h))
  | halt => cases h

theorem opcode_of_known {b : Byte} (h : ¬b ∉ ([0x01, 0x02, 0x03, 0x04, 0xff] : List Byte)) (hne : b ≠ 0xff) :
    ∃ k : OpKind, k ≠ .halt ∧ b = k.opcode := by
  cases hd : decodeOpcode b with
  | error e =>
    obtain ⟨rfl, -⟩ := decodeOpcode_error hd
    exact absurd ((decodeOpcode_eq_unknown_iff b).mp hd) h
  | ok k =>
    have hb := decodeOpcode_ok hd
    exact ⟨k, fun hk => hne (hb.trans (congrArg OpKind.opcode hk)), hb⟩

theorem triplet_ne_halt (hk : k ≠ .halt) : k.triplet b1 b2 ≠ .halt := by
  cases k with
  | halt => exact absurd rfl hk
  | _ => nofun

theorem stepCompletes_of_effect {t : State} {i : Instr} (hrun : s.run = .running)
    (hf : fetchInstr s.mem s.pc.toNat = .ok i) (hi : i ≠ .halt) (he : Effect s i t) : StepCompletes s :=
  ⟨t, (step_of_fetch_ok hrun hf).trans (exec_of_effect he), he.run_running hrun hi⟩

end

/-- Settles O12: the fetch unit and the decoder report orders 1 to 4; an instruction they let through meets orders 5
to 7, each under the negation of those before it, and none of them means it has its effect. -/
theorem firstFailingCheckIsReported : Obligations.FirstFailingCheckIsReported := by
  intro s hrun
  dsimp only
  split
  next hpc => exact stepFaults_of_fetch hrun (fetchInstr_pc_bound (by omega))
  next hpc =>
  split
  next hunknown =>
    exact stepFaults_of_fetch hrun (fetchInstr_unknown (by omega) ((decodeOpcode_eq_unknown_iff _).mpr hunknown))
  next hknown =>
  split
  next hhalt => exact ⟨_, step_halt hrun (by omega) hhalt, rfl⟩
  next hhalt =>
  obtain ⟨k, hk, h0⟩ := opcode_of_known hknown hhalt
  split
  next hoperands => exact stepFaults_operand_bound hrun hk h0 (by omega)
  next hoperands =>
  have hf := fetchInstr_triplet h0 (show s.pc.toNat + 2 ≤ 13 by omega)
  rw [h0]
  split
  next hreg => exact stepFaults_of_execFault hrun hf (execFault_of_illegalRegister hk hreg)
  next hreg =>
  split
  next haddr => exact stepFaults_of_execFault hrun hf (execFault_of_illegalAddress hreg haddr)
  next haddr =>
  split
  next huninit => exact stepFaults_of_execFault hrun hf (execFault_of_readsUninitialized hk hreg haddr huninit)
  next huninit =>
  obtain ⟨t, he⟩ | ⟨e, he⟩ := effect_or_execFault (k.triplet _ _) s
  · exact stepCompletes_of_effect hrun hf (triplet_ne_halt hk) he
  · obtain h | h | h := order_of_execFault he
    exacts [absurd h hreg, absurd h haddr, absurd h huninit]

/-- The opcode bytes of the instructions with a data address, and of those with a second register, are opcode bytes of
instructions with operands. -/
theorem triplet_opcode_of_pair {b : Byte} (h : b ∈ ([0x01, 0x02] : List Byte) ∨ b ∈ ([0x03, 0x04] : List Byte)) :
    ∃ k : OpKind, k ≠ .halt ∧ b = k.opcode :=
  (mem_triplet_opcodes_iff b).mp (List.mem_append.mpr h)

theorem opcode_pairs_disjoint {k : OpKind} (h : k.opcode = 0x01 ∨ k.opcode = 0x02) :
    ¬(k.opcode = 0x03 ∨ k.opcode = 0x04) := by
  revert h
  cases k <;> decide

/-- Settles O36: the fetch unit answers `halt` without reading on, and an operand byte 0xff is 255, which names no
register and no word. -/
theorem haltFollowsItsRule : Obligations.HaltFollowsItsRule := by
  refine ⟨rfl, fun s => ⟨⟨_, rfl, rfl, rfl, ⟨rfl, rfl⟩, rfl⟩, fun hrun h0 => ⟨fun hpc => step_halt hrun hpc h0,
    fun hpc => stepFaults_of_fetch hrun (fetchInstr_pc_bound (by omega))⟩, fun t u ht hu => ?_, fun hrun hpc h0 h1 => ?_,
    fun hrun hpc h0 h1 h2 => ?_, fun hrun hpc h0 h2 => ?_⟩⟩
  · cases ht
    cases (step_cases hu).1
  · obtain ⟨k, hk, h0⟩ := (mem_triplet_opcodes_iff _).mp h0
    refine stepFaults_of_execFault hrun (fetchInstr_triplet h0 (by omega)) ?_
    exact execFault_of_illegalRegister hk (.inl (by rw [h1]; decide))
  · obtain ⟨k, hk, hopcode⟩ := triplet_opcode_of_pair (.inl h0)
    rw [hopcode, List.mem_pair] at h0
    refine stepFaults_of_execFault hrun (fetchInstr_triplet hopcode (by omega)) ?_
    exact execFault_of_illegalAddress (not_or.mpr ⟨not_not.mpr h1, fun h => opcode_pairs_disjoint h0 h.1⟩)
      ⟨h0, by rw [h2]; decide⟩
  · obtain ⟨k, hk, hopcode⟩ := triplet_opcode_of_pair (.inr h0)
    rw [hopcode, List.mem_pair] at h0
    refine stepFaults_of_execFault hrun (fetchInstr_triplet hopcode (by omega)) ?_
    exact execFault_of_illegalRegister hk (.inr ⟨h0, by rw [h2]; decide⟩)

end Sys2Proof.Machine
end

section
/-! Whole runs (70_reset_and_hazards.md sections 2 and 6). `RunEnds` is a run to its terminal state; what it says of
`stepTimes`, of the runner and of the trace is proved by induction on it, and that every run is one by the distance of
the pc to 12. -/

namespace Sys2Proof.Machine

/-- The run from `s` ends in `t`, a terminal state, after exactly `n` steps. -/
inductive RunEnds : Nat → State → State → Prop where
  | last {s t : State} (hstep : step s = .next t) (ht : t.run.terminal = true) : RunEnds 1 s t
  | cons {n : Nat} {s u t : State} (hstep : step s = .next u) (hu : u.run = .running) (hrest : RunEnds n u t) :
      RunEnds (n + 1) s t

theorem RunState.running_or_terminal (r : RunState) : r = .running ∨ r.terminal = true := by
  cases r with
  | running => exact .inl rfl
  | halted => exact .inr rfl
  | faulted k => exact .inr rfl

section
variable {n fuel a : Nat} {s t : State} {r : RunResult}

/-! ### Every run ends -/

/-- At a pc of 12 or more no instruction with operands is fetched, so the step ends the run. -/
theorem run_of_step_beyond (h : step s = .next t) (hpc : 11 < s.pc.toNat) :
    t.run = .halted ∨ t.run = .faulted .unknownOpcode ∨ t.run = .faulted .outOfBounds := by
  obtain ⟨-, ⟨k, hf, rfl⟩ | ⟨i, hf, hexec, -⟩⟩ := step_cases h
  · obtain rfl | rfl := fetchInstr_error_kind hf
    · exact .inr (.inr rfl)
    · exact .inr (.inl rfl)
  · have hi : i = .halt := by_contra fun hi => Nat.not_le_of_gt hpc (pc_le_of_fetch_ok hf hi)
    subst hi
    cases hexec
    exact .inl rfl

/-- The run bound (R166): each step that goes on takes the pc 3 closer to 12, where the next one ends the run. -/
theorem exists_runEnds (d : Nat) (s : State) (hrun : s.run = .running) (hpc : s.pc.toNat + 3 * d = 12) :
    ∃ n t, RunEnds n s t ∧ n ≤ d + 1 ∧
      (n = d + 1 → t.run = .halted ∨ t.run = .faulted .unknownOpcode ∨ t.run = .faulted .outOfBounds) := by
  induction d generalizing s with
  | zero =>
    obtain ⟨t, ht⟩ := step_exists_next hrun
    have hend := run_of_step_beyond ht (by omega)
    refine ⟨1, t, .last ht ?_, le_rfl, fun _ => hend⟩
    obtain h | h | h := hend <;> rw [h] <;> rfl
  | succ d ih =>
    obtain ⟨u, hu⟩ := step_exists_next hrun
    obtain hgo | hend := u.run.running_or_terminal
    · obtain ⟨-, hnext⟩ := pc_of_step_running hu hgo
      obtain ⟨n, t, hends, hle, hlast⟩ := ih u hgo (by omega)
      exact ⟨n + 1, t, .cons hu hgo hends, by omega, fun hn => hlast (by omega)⟩
    · exact ⟨1, u, .last hu hend, by omega, fun hn => by omega⟩

theorem exists_runEnds_of_loaded {image : List Byte} (h : loadImage image = .ok s) :
    ∃ n t, RunEnds n s t ∧ n ≤ 5 ∧
      (n = 5 → t.run = .halted ∨ t.run = .faulted .unknownOpcode ∨ t.run = .faulted .outOfBounds) := by
  obtain ⟨-, rfl⟩ := loadImage_eq_ok h
  exact exists_runEnds 4 _ rfl rfl

/-! ### What a run that ends says of the model's functions -/

theorem RunEnds.one_le (h : RunEnds n s t) : 1 ≤ n := by
  cases h with
  | last => exact le_rfl
  | cons => omega

theorem RunEnds.terminal (h : RunEnds n s t) : t.run.terminal = true := by
  induction h with
  | last _ ht => exact ht
  | cons _ _ _ ih => exact ih

theorem RunEnds.stepTimes (h : RunEnds n s t) : stepTimes n s = some t := by
  induction h with
  | last hstep _ => exact stepTimes_succ.mpr ⟨_, hstep, rfl⟩
  | cons hstep _ _ ih => exact stepTimes_succ.mpr ⟨_, hstep, ih⟩

/-- Before its end a run is in `Running`, with the pc 3 further after each step. -/
theorem RunEnds.before (h : RunEnds n s t) : ∀ k, k < n →
    ∃ u, Machine.stepTimes k s = some u ∧ u.run = .running ∧ u.pc.toNat = s.pc.toNat + 3 * k := by
  induction h with
  | last hstep _ =>
    intro k hk
    obtain rfl : k = 0 := by omega
    exact ⟨_, rfl, (step_cases hstep).1, rfl⟩
  | cons hstep hu _ ih =>
    intro k hk
    cases k with
    | zero => exact ⟨_, rfl, (step_cases hstep).1, rfl⟩
    | succ k =>
      obtain ⟨v, hv, hrun, hpc⟩ := ih k (by omega)
      obtain ⟨-, hnext⟩ := pc_of_step_running hstep hu
      exact ⟨v, stepTimes_succ.mpr ⟨_, hstep, hv⟩, hrun, by omega⟩

theorem outcome_of_running (h : s.run = .running) : s.outcome = none := by simp only [State.outcome, h]

theorem runSteps_of_outcome (h : s.outcome = some r) : runSteps fuel s = r := by
  cases fuel with
  | zero => simp only [runSteps, h, Option.getD_some]
  | succ fuel => simp only [runSteps, h]

theorem runSteps_succ (h : step s = .next t) : runSteps (fuel + 1) s = runSteps fuel t := by
  simp only [runSteps, outcome_of_running (step_cases h).1, h]

/-- A runner whose fuel lasts answers the outcome of the state that ends the run. -/
theorem RunEnds.runSteps (h : RunEnds n s t) (hr : t.outcome = some r) (hfuel : n ≤ fuel) :
    runSteps fuel s = r := by
  induction h generalizing fuel with
  | last hstep _ =>
    obtain ⟨fuel, rfl⟩ := Nat.exists_eq_add_of_le' hfuel
    rw [runSteps_succ hstep, runSteps_of_outcome hr]
  | cons hstep _ _ ih =>
    obtain ⟨fuel, rfl⟩ := Nat.exists_eq_add_of_le' (Nat.one_le_of_lt hfuel)
    rw [runSteps_succ hstep, ih hr (Nat.le_of_succ_le_succ hfuel)]

theorem RunEnds.outcome (h : RunEnds n s t) : ∃ r, t.outcome = some r ∧
    ((t.run = .halted ∧ r = .success t.mem.image) ∨ ∃ k, t.run = .faulted k ∧ r = .failure (.step k)) := by
  have hterminal := h.terminal
  cases hrun : t.run with
  | running => rw [hrun] at hterminal; cases hterminal
  | halted => exact ⟨_, by simp only [State.outcome, hrun], .inl ⟨rfl, rfl⟩⟩
  | faulted k => exact ⟨_, by simp only [State.outcome, hrun], .inr ⟨k, rfl, rfl⟩⟩

theorem run_of_runEnds {image : List Byte} {maxSteps : Option Nat} (hload : loadImage image = .ok s)
    (h : RunEnds n s t) (hr : t.outcome = some r) (hmax : n ≤ maxSteps.getD 5) : run image maxSteps = r := by
  simp only [run, hload]
  exact h.runSteps hr hmax

/-! ### The bytes a run stores -/

theorem storedAddrs_of_store {q : Gpr} {v : Word} {b2 : Byte}
    (hf : fetchInstr s.mem s.pc.toNat = .ok (.storeWord q.address b2)) (h : b2.toNat + 1 < 20) (hq : s.reg q = some v) :
    s.storedAddrs = [b2.toNat, b2.toNat + 1] := by
  simp only [State.storedAddrs, hf, storeWordBody_ok h hq, effectiveAddr]

/-- A byte that a step changes is one the step stores to. -/
theorem mem_storedAddrs_of_peek_ne (h : step s = .next t) (hne : t.mem.peek a ≠ s.mem.peek a) : a ∈ s.storedAddrs := by
  obtain ⟨i, hf, he⟩ | ⟨k, rfl⟩ := step_effect_or_raise h
  · obtain ⟨q, b2, v, rfl, ha, hb, hq⟩ := he.peek_ne hne
    rw [storedAddrs_of_store hf hb hq]
    exact List.mem_pair.mpr ha
  · exact absurd rfl hne

theorem trace_succ (h : step s = .next t) : trace (fuel + 1) s = s :: trace fuel t := by
  simp only [trace, h]

/-- A byte that a run changes is stored to by one of its steps. -/
theorem RunEnds.mem_storedAddrs (h : RunEnds n s t) (hfuel : n ≤ fuel) (hne : t.mem.peek a ≠ s.mem.peek a) :
    ∃ u ∈ trace fuel s, a ∈ u.storedAddrs := by
  induction h generalizing fuel with
  | @last s t hstep _ =>
    obtain ⟨fuel, rfl⟩ := Nat.exists_eq_add_of_le' hfuel
    exact ⟨s, trace_succ hstep ▸ List.mem_cons_self, mem_storedAddrs_of_peek_ne hstep hne⟩
  | @cons n s u t hstep _ _ ih =>
    obtain ⟨fuel, rfl⟩ := Nat.exists_eq_add_of_le' (Nat.one_le_of_lt hfuel)
    rw [trace_succ hstep]
    by_cases heq : u.mem.peek a = s.mem.peek a
    · obtain ⟨v, hv, hmem⟩ := ih (Nat.le_of_succ_le_succ hfuel) (heq ▸ hne)
      exact ⟨v, List.mem_cons_of_mem s hv, hmem⟩
    · exact ⟨s, List.mem_cons_self, mem_storedAddrs_of_peek_ne hstep heq⟩

theorem Memory.getElem?_image_congr {m m' : Memory} (h : m.peek a = m'.peek a) : m.image[a]? = m'.image[a]? := by
  by_cases ha : a < 20 <;> simp [Memory.image, ha, h]

end

/-- Settles O39: from the loaded state, at pc 0, the run bound gives the end within five steps. -/
theorem everyRunEndsWithinFiveSteps : Obligations.EveryRunEndsWithinFiveSteps := by
  intro image hlen
  have hload := loadImage_of_length hlen
  obtain ⟨n, t, hends, hle, hfive⟩ := exists_runEnds_of_loaded hload
  refine ⟨_, n, t, hload, hends.one_le, hle, hends.stepTimes, hends.terminal, fun k hk => ?_, hfive⟩
  obtain ⟨u, hu, hrun, hpc⟩ := hends.before k hk
  exact ⟨u, hu, hrun, hpc.trans (Nat.zero_add _)⟩

/-- Settles O40: the runner's fuel of 5 lasts to the run's end, and the outcome there is the answer. -/
theorem runResultIsTheEndOfTheRun : Obligations.RunResultIsTheEndOfTheRun := by
  intro image s hload
  obtain ⟨n, t, hends, hle, -⟩ := exists_runEnds_of_loaded hload
  obtain ⟨r, hr, hcases⟩ := hends.outcome
  have hresult : run image = r := run_of_runEnds hload hends hr hle
  refine ⟨n, t, hends.one_le, hle, hends.stepTimes, fun k hk => ?_, ?_⟩
  · obtain ⟨u, hu, hrun, -⟩ := hends.before k hk
    exact ⟨u, hu, hrun⟩
  · obtain ⟨ht, rfl⟩ | ⟨k, ht, rfl⟩ := hcases
    · exact .inl ⟨ht, hresult⟩
    · exact .inr ⟨k, ht, hresult⟩

/-- Settles O41: a fuel of 5 and any larger one both last to the run's end. -/
theorem maxStepsOfFiveOrMoreChangesNothing : Obligations.MaxStepsOfFiveOrMoreChangesNothing := by
  intro image n hn
  cases hload : loadImage image with
  | error e => simp only [run, hload]
  | ok s =>
    obtain ⟨m, t, hends, hle, -⟩ := exists_runEnds_of_loaded hload
    obtain ⟨r, hr, -⟩ := hends.outcome
    have hshort : run image = r := run_of_runEnds hload hends hr hle
    have hlong : run image (some n) = r := run_of_runEnds hload hends hr (hle.trans hn)
    exact hlong.trans hshort.symm

/-- Settles O42: the answer is the memory of the run's end, read back beside the loaded memory; a byte that differs was
stored to in a step of the run. -/
theorem finalMemoryIsTheImageButForStores : Obligations.FinalMemoryIsTheImageButForStores := by
  intro image final s hload hresult
  obtain ⟨n, t, hends, hle, -⟩ := exists_runEnds_of_loaded hload
  obtain ⟨r, hr, hcases⟩ := hends.outcome
  have hrun : run image = r := run_of_runEnds hload hends hr hle
  obtain rfl := hrun.symm.trans hresult
  obtain ⟨-, hfinal⟩ | ⟨k, -, hfinal⟩ := hcases <;> cases hfinal
  have himage : s.mem.image = image := by
    obtain ⟨hlen, rfl⟩ := loadImage_eq_ok hload
    exact Memory.image_eq_of_peek hlen (peek_loaded hlen)
  refine ⟨t.mem.length_image, fun a hne => hends.mem_storedAddrs hle fun heq => hne ?_⟩
  rw [← himage]
  exact Memory.getElem?_image_congr heq

/-! ### The error kind of the loader -/

/-- The runner reports no error kind but a step's. -/
theorem runSteps_ne_invalidMemorySize (fuel : Nat) (s : State) : runSteps fuel s ≠ .failure .invalidMemorySize := by
  have houtcome : ∀ {s : State} {r : RunResult}, s.outcome = some r → r ≠ .failure .invalidMemorySize := by
    intro s r h
    unfold State.outcome at h
    split at h <;> cases h <;> nofun
  induction fuel generalizing s with
  | zero =>
    cases h : s.outcome with
    | none => simp [runSteps, h]
    | some r => rw [runSteps_of_outcome h]; exact houtcome h
  | succ fuel ih =>
    cases h : s.outcome with
    | some r => rw [runSteps_of_outcome h]; exact houtcome h
    | none =>
      simp only [runSteps, h]
      split
      · exact ih _
      · nofun

/-- Settles O3: the loader alone answers `InvalidMemorySize`, for a wrong length, and the runner never does. -/
theorem wrongLengthImageIsRejected : Obligations.WrongLengthImageIsRejected := by
  intro image maxSteps
  have hreject : image.length ≠ 20 → loadImage image = .error .invalidMemorySize := fun hne => if_neg hne
  refine ⟨hreject, fun hrun hlen => ?_, fun hne => ?_⟩
  · simp only [run, loadImage_of_length hlen] at hrun
    exact runSteps_ne_invalidMemorySize _ _ hrun
  · simp only [run, hreject hne]

end Sys2Proof.Machine
end
